-- ==== Sys2Proof/Word.lean ====
section
/-! DEFINITION. The word types of the core: bytes, 16-bit words and the two index types (spec/00_scope.md R6, R9, R303). -/

namespace Sys2Proof

/-- A byte: a V register, a memory cell, a timer (R100, R101, R114). -/
abbrev Byte := BitVec 8

/-- A 16-bit value: I, PC, a stack slot, an opcode (R110, R111, R120, R300). -/
abbrev Word := BitVec 16

/-- The number of a V register, 0 to 15: every 4-bit field names a register (R101, R303). -/
abbrev Reg := Fin 16

end Sys2Proof
end

