-- ==== Sys2Proof/Machine/Flags.lean ====
section
/-! DEFINITION. The flag computations: what each flag-writing instruction writes to VF, 0 or 1 (spec/41_alu.md R450, spec/10_state.md R102, R103). -/

namespace Sys2Proof.Machine

/-- A flag as the byte VF holds (R103). -/
def flagByte (b : Bool) : Byte := if b then 1 else 0

/-- 8xy4: 1 if the unsigned sum exceeds 255 (R462). -/
def carryFlag (a b : Byte) : Byte := flagByte (decide (a.toNat + b.toNat > 255))

/-- 8xy5, 8xy7: 1 if the minuend is strictly greater than the subtrahend (R463, R465). -/
def greaterFlag (minuend subtrahend : Byte) : Byte := flagByte (decide (minuend.toNat > subtrahend.toNat))

/-- 8xy6: the bit shifted out, bit 0 (R464). -/
def lowBitFlag (a : Byte) : Byte := flagByte (a.getLsbD 0)

/-- 8xyE: the bit shifted out, bit 7 (R466). -/
def highBitFlag (a : Byte) : Byte := flagByte (a.getLsbD 7)

/-- Dxyn: 1 if a set sprite bit fell on a set pixel (R560). -/
def collisionFlag (coll : Bool) : Byte := flagByte coll

end Sys2Proof.Machine
end

