-- ==== Sys2Proof/Syntax.lean ====
section
/-! DEFINITION. The 35 instructions of the opcode table (spec/30_encoding.md R340), one constructor per row, in the table's order. -/

namespace Sys2Proof

/-- An instruction with the operand fields its pattern names (R301, R302). `shrVxVy` and `shlVxVy` keep their y field and `sys`
its nnn, which the instruction ignores (R352), so that an instruction and its word determine each other. -/
inductive Instr where
  /-- 00E0 (R555) -/
  | cls
  /-- 00EE (R401) -/
  | ret
  /-- 0nnn (R402) -/
  | sys (nnn : BitVec 12)
  /-- 1nnn (R403) -/
  | jp (nnn : BitVec 12)
  /-- 2nnn (R404) -/
  | call (nnn : BitVec 12)
  /-- 3xkk (R405) -/
  | seVxKk (x : Reg) (kk : Byte)
  /-- 4xkk (R406) -/
  | sneVxKk (x : Reg) (kk : Byte)
  /-- 5xy0 (R407) -/
  | seVxVy (x y : Reg)
  /-- 6xkk (R451) -/
  | ldVxKk (x : Reg) (kk : Byte)
  /-- 7xkk (R452) -/
  | addVxKk (x : Reg) (kk : Byte)
  /-- 8xy0 (R455) -/
  | ldVxVy (x y : Reg)
  /-- 8xy1 (R456) -/
  | orVxVy (x y : Reg)
  /-- 8xy2 (R457) -/
  | andVxVy (x y : Reg)
  /-- 8xy3 (R458) -/
  | xorVxVy (x y : Reg)
  /-- 8xy4 (R462) -/
  | addVxVy (x y : Reg)
  /-- 8xy5 (R463) -/
  | subVxVy (x y : Reg)
  /-- 8xy6 (R464) -/
  | shrVxVy (x y : Reg)
  /-- 8xy7 (R465) -/
  | subnVxVy (x y : Reg)
  /-- 8xyE (R466) -/
  | shlVxVy (x y : Reg)
  /-- 9xy0 (R408) -/
  | sneVxVy (x y : Reg)
  /-- Annn (R501) -/
  | ldINnn (nnn : BitVec 12)
  /-- Bnnn (R409) -/
  | jpV0Nnn (nnn : BitVec 12)
  /-- Cxkk (R470) -/
  | rndVxKk (x : Reg) (kk : Byte)
  /-- Dxyn (R560) -/
  | drw (x y : Reg) (n : BitVec 4)
  /-- Ex9E (R601) -/
  | skp (x : Reg)
  /-- ExA1 (R602) -/
  | sknp (x : Reg)
  /-- Fx07 (R604) -/
  | ldVxDt (x : Reg)
  /-- Fx0A (R603) -/
  | ldVxK (x : Reg)
  /-- Fx15 (R605) -/
  | ldDtVx (x : Reg)
  /-- Fx18 (R606) -/
  | ldStVx (x : Reg)
  /-- Fx1E (R502) -/
  | addIVx (x : Reg)
  /-- Fx29 (R503) -/
  | ldFVx (x : Reg)
  /-- Fx33 (R504) -/
  | ldBVx (x : Reg)
  /-- Fx55 (R505) -/
  | ldMemVx (x : Reg)
  /-- Fx65 (R506) -/
  | ldVxMem (x : Reg)
  deriving DecidableEq, Repr

end Sys2Proof
end

