-- ==== Sys2Proof/WellFormed.lean ====
section
/-! DEFINITION. Which instructions have a word of their own. Every operand is in range by its type (spec/30_encoding.md R303); the one check left is that 00E0 and 00EE are no SYS words (R341). -/

namespace Sys2Proof

/-- The operands SYS may carry: every nnn but those of the words of CLS and RET (R341, R402). -/
def sysOperandOk (nnn : BitVec 12) : Bool := nnn != 0x0E0 && nnn != 0x0EE

/-- The instruction is the meaning of some word (R331, R341). -/
def Instr.wf (i : Instr) : Bool :=
  match i with
  | .sys nnn => sysOperandOk nnn
  | .cls | .ret | .jp _ | .call _ | .seVxKk _ _ | .sneVxKk _ _ | .seVxVy _ _ | .ldVxKk _ _ | .addVxKk _ _
  | .ldVxVy _ _ | .orVxVy _ _ | .andVxVy _ _ | .xorVxVy _ _ | .addVxVy _ _ | .subVxVy _ _ | .shrVxVy _ _
  | .subnVxVy _ _ | .shlVxVy _ _ | .sneVxVy _ _ | .ldINnn _ | .jpV0Nnn _ | .rndVxKk _ _ | .drw _ _ _
  | .skp _ | .sknp _ | .ldVxDt _ | .ldVxK _ | .ldDtVx _ | .ldStVx _ | .addIVx _ | .ldFVx _ | .ldBVx _
  | .ldMemVx _ | .ldVxMem _ => true

end Sys2Proof
end

