-- ==== Sys2Proof/Decode.lean ====
section
/-! DEFINITION. Fields, decoder, encoder and the opcode table's masks (spec/30_encoding.md R301, R330, R340, R341), and the big-endian word of two bytes (spec/20_memory.md R230). -/

namespace Sys2Proof

/-- {hi, lo}: the byte at the lower address is bits 15:8 (R230). -/
def wordOfBytes (hi lo : Byte) : Word := hi ++ lo

/-- Bits 15:8 of a word, the byte stored at the lower address (R230). -/
def highByte (w : Word) : Byte := w.extractLsb' 8 8

/-- Bits 7:0 of a word, the byte stored at the higher address (R230). -/
def lowByte (w : Word) : Byte := w.extractLsb' 0 8

/-- g, the group: op[15:12] (R301). -/
def fieldG (w : Word) : BitVec 4 := w.extractLsb' 12 4

/-- x: op[11:8] (R301). -/
def fieldX (w : Word) : Reg := (w.extractLsb' 8 4).toFin

/-- y: op[7:4] (R301). -/
def fieldY (w : Word) : Reg := (w.extractLsb' 4 4).toFin

/-- n: op[3:0] (R301). -/
def fieldN (w : Word) : BitVec 4 := w.extractLsb' 0 4

/-- kk: op[7:0] (R301). -/
def fieldKk (w : Word) : Byte := w.extractLsb' 0 8

/-- nnn: op[11:0] (R301). -/
def fieldNnn (w : Word) : BitVec 12 := w.extractLsb' 0 12

/-- Why a word is no instruction: the group whose patterns it misses (R330, R331). -/
inductive UnknownWord where
  /-- 5xyN with N ≠ 0 -/
  | group5
  /-- 8xyN with N one of 8 to D, F -/
  | group8
  /-- 9xyN with N ≠ 0 -/
  | group9
  /-- Exkk with kk neither 9E nor A1 -/
  | groupE
  /-- Fxkk with kk none of the nine function bytes -/
  | groupF
  deriving DecidableEq, Repr

/-- Group 0: the exact words 00E0 and 00EE, else SYS (R330, R341). -/
def decodeGroup0 (w : Word) : Instr :=
  if w = 0x00E0 then .cls
  else if w = 0x00EE then .ret
  else .sys (fieldNnn w)

/-- Group 8: by the low nibble (R330). -/
def decodeGroup8 (w : Word) : Except UnknownWord Instr :=
  if fieldN w = 0x0 then .ok (.ldVxVy (fieldX w) (fieldY w))
  else if fieldN w = 0x1 then .ok (.orVxVy (fieldX w) (fieldY w))
  else if fieldN w = 0x2 then .ok (.andVxVy (fieldX w) (fieldY w))
  else if fieldN w = 0x3 then .ok (.xorVxVy (fieldX w) (fieldY w))
  else if fieldN w = 0x4 then .ok (.addVxVy (fieldX w) (fieldY w))
  else if fieldN w = 0x5 then .ok (.subVxVy (fieldX w) (fieldY w))
  else if fieldN w = 0x6 then .ok (.shrVxVy (fieldX w) (fieldY w))
  else if fieldN w = 0x7 then .ok (.subnVxVy (fieldX w) (fieldY w))
  else if fieldN w = 0xE then .ok (.shlVxVy (fieldX w) (fieldY w))
  else .error .group8

/-- Group E: by the low byte (R330). -/
def decodeGroupE (w : Word) : Except UnknownWord Instr :=
  if fieldKk w = 0x9E then .ok (.skp (fieldX w))
  else if fieldKk w = 0xA1 then .ok (.sknp (fieldX w))
  else .error .groupE

/-- Group F: by the low byte (R330). -/
def decodeGroupF (w : Word) : Except UnknownWord Instr :=
  if fieldKk w = 0x07 then .ok (.ldVxDt (fieldX w))
  else if fieldKk w = 0x0A then .ok (.ldVxK (fieldX w))
  else if fieldKk w = 0x15 then .ok (.ldDtVx (fieldX w))
  else if fieldKk w = 0x18 then .ok (.ldStVx (fieldX w))
  else if fieldKk w = 0x1E then .ok (.addIVx (fieldX w))
  else if fieldKk w = 0x29 then .ok (.ldFVx (fieldX w))
  else if fieldKk w = 0x33 then .ok (.ldBVx (fieldX w))
  else if fieldKk w = 0x55 then .ok (.ldMemVx (fieldX w))
  else if fieldKk w = 0x65 then .ok (.ldVxMem (fieldX w))
  else .error .groupF

/-- Dispatch's classification of a word by its most significant nibble (R330): total, each word one instruction or UNKNOWN
(R331). -/
def decode (w : Word) : Except UnknownWord Instr :=
  if fieldG w = 0x0 then .ok (decodeGroup0 w)
  else if fieldG w = 0x1 then .ok (.jp (fieldNnn w))
  else if fieldG w = 0x2 then .ok (.call (fieldNnn w))
  else if fieldG w = 0x3 then .ok (.seVxKk (fieldX w) (fieldKk w))
  else if fieldG w = 0x4 then .ok (.sneVxKk (fieldX w) (fieldKk w))
  else if fieldG w = 0x5 then
    if fieldN w = 0x0 then .ok (.seVxVy (fieldX w) (fieldY w)) else .error .group5
  else if fieldG w = 0x6 then .ok (.ldVxKk (fieldX w) (fieldKk w))
  else if fieldG w = 0x7 then .ok (.addVxKk (fieldX w) (fieldKk w))
  else if fieldG w = 0x8 then decodeGroup8 w
  else if fieldG w = 0x9 then
    if fieldN w = 0x0 then .ok (.sneVxVy (fieldX w) (fieldY w)) else .error .group9
  else if fieldG w = 0xA then .ok (.ldINnn (fieldNnn w))
  else if fieldG w = 0xB then .ok (.jpV0Nnn (fieldNnn w))
  else if fieldG w = 0xC then .ok (.rndVxKk (fieldX w) (fieldKk w))
  else if fieldG w = 0xD then .ok (.drw (fieldX w) (fieldY w) (fieldN w))
  else if fieldG w = 0xE then decodeGroupE w
  else decodeGroupF w

/-- The decoder over the two bytes of an instruction, the byte at the lower address first (R230, R300). -/
def decodeBytes (hi lo : Byte) : Except UnknownWord Instr := decode (wordOfBytes hi lo)

/-- F-nnn: {g, nnn} (R302). -/
def formNnn (g : BitVec 4) (nnn : BitVec 12) : Word := g ++ nnn

/-- F-xkk, and F-xff with a function byte as kk: {g, x, kk} (R302). -/
def formXkk (g : BitVec 4) (x : Reg) (kk : Byte) : Word := g ++ BitVec.ofFin (w := 4) x ++ kk

/-- F-xyf and F-xyn: {g, x, y, n} (R302). -/
def formXyn (g : BitVec 4) (x y : Reg) (n : BitVec 4) : Word :=
  g ++ BitVec.ofFin (w := 4) x ++ BitVec.ofFin (w := 4) y ++ n

/-- The word of an instruction (R302, R340). -/
def encode (i : Instr) : Word :=
  match i with
  | .cls => 0x00E0
  | .ret => 0x00EE
  | .sys nnn => formNnn 0x0 nnn
  | .jp nnn => formNnn 0x1 nnn
  | .call nnn => formNnn 0x2 nnn
  | .seVxKk x kk => formXkk 0x3 x kk
  | .sneVxKk x kk => formXkk 0x4 x kk
  | .seVxVy x y => formXyn 0x5 x y 0x0
  | .ldVxKk x kk => formXkk 0x6 x kk
  | .addVxKk x kk => formXkk 0x7 x kk
  | .ldVxVy x y => formXyn 0x8 x y 0x0
  | .orVxVy x y => formXyn 0x8 x y 0x1
  | .andVxVy x y => formXyn 0x8 x y 0x2
  | .xorVxVy x y => formXyn 0x8 x y 0x3
  | .addVxVy x y => formXyn 0x8 x y 0x4
  | .subVxVy x y => formXyn 0x8 x y 0x5
  | .shrVxVy x y => formXyn 0x8 x y 0x6
  | .subnVxVy x y => formXyn 0x8 x y 0x7
  | .shlVxVy x y => formXyn 0x8 x y 0xE
  | .sneVxVy x y => formXyn 0x9 x y 0x0
  | .ldINnn nnn => formNnn 0xA nnn
  | .jpV0Nnn nnn => formNnn 0xB nnn
  | .rndVxKk x kk => formXkk 0xC x kk
  | .drw x y n => formXyn 0xD x y n
  | .skp x => formXkk 0xE x 0x9E
  | .sknp x => formXkk 0xE x 0xA1
  | .ldVxDt x => formXkk 0xF x 0x07
  | .ldVxK x => formXkk 0xF x 0x0A
  | .ldDtVx x => formXkk 0xF x 0x15
  | .ldStVx x => formXkk 0xF x 0x18
  | .addIVx x => formXkk 0xF x 0x1E
  | .ldFVx x => formXkk 0xF x 0x29
  | .ldBVx x => formXkk 0xF x 0x33
  | .ldMemVx x => formXkk 0xF x 0x55
  | .ldVxMem x => formXkk 0xF x 0x65

/-- A row's match and mask in the opcode table: the words w of the row have w & mask = match (R340). -/
structure Row where
  bits : Word
  mask : Word
  deriving DecidableEq, Repr

/-- The row of R340 an instruction belongs to. -/
def Instr.row (i : Instr) : Row :=
  match i with
  | .cls => ⟨0x00E0, 0xFFFF⟩
  | .ret => ⟨0x00EE, 0xFFFF⟩
  | .sys _ => ⟨0x0000, 0xF000⟩
  | .jp _ => ⟨0x1000, 0xF000⟩
  | .call _ => ⟨0x2000, 0xF000⟩
  | .seVxKk _ _ => ⟨0x3000, 0xF000⟩
  | .sneVxKk _ _ => ⟨0x4000, 0xF000⟩
  | .seVxVy _ _ => ⟨0x5000, 0xF00F⟩
  | .ldVxKk _ _ => ⟨0x6000, 0xF000⟩
  | .addVxKk _ _ => ⟨0x7000, 0xF000⟩
  | .ldVxVy _ _ => ⟨0x8000, 0xF00F⟩
  | .orVxVy _ _ => ⟨0x8001, 0xF00F⟩
  | .andVxVy _ _ => ⟨0x8002, 0xF00F⟩
  | .xorVxVy _ _ => ⟨0x8003, 0xF00F⟩
  | .addVxVy _ _ => ⟨0x8004, 0xF00F⟩
  | .subVxVy _ _ => ⟨0x8005, 0xF00F⟩
  | .shrVxVy _ _ => ⟨0x8006, 0xF00F⟩
  | .subnVxVy _ _ => ⟨0x8007, 0xF00F⟩
  | .shlVxVy _ _ => ⟨0x800E, 0xF00F⟩
  | .sneVxVy _ _ => ⟨0x9000, 0xF00F⟩
  | .ldINnn _ => ⟨0xA000, 0xF000⟩
  | .jpV0Nnn _ => ⟨0xB000, 0xF000⟩
  | .rndVxKk _ _ => ⟨0xC000, 0xF000⟩
  | .drw _ _ _ => ⟨0xD000, 0xF000⟩
  | .skp _ => ⟨0xE09E, 0xF0FF⟩
  | .sknp _ => ⟨0xE0A1, 0xF0FF⟩
  | .ldVxDt _ => ⟨0xF007, 0xF0FF⟩
  | .ldVxK _ => ⟨0xF00A, 0xF0FF⟩
  | .ldDtVx _ => ⟨0xF015, 0xF0FF⟩
  | .ldStVx _ => ⟨0xF018, 0xF0FF⟩
  | .addIVx _ => ⟨0xF01E, 0xF0FF⟩
  | .ldFVx _ => ⟨0xF029, 0xF0FF⟩
  | .ldBVx _ => ⟨0xF033, 0xF0FF⟩
  | .ldMemVx _ => ⟨0xF055, 0xF0FF⟩
  | .ldVxMem _ => ⟨0xF065, 0xF0FF⟩

/-- The one word an instruction of the table has in `w`'s low `nbits` bits, the bits above zero (every row has 16). -/
def tableWord (nbits w : Nat) : Word := BitVec.ofNat 16 (w % 2 ^ nbits)

/-- The instruction the decoder reads from a word numbered as spec/opcode_table.json numbers it: laid out as the hardware
stores it (R230), then decoded; none for an UNKNOWN word. -/
def decodeTableWord (nbits w : Nat) : Option Instr :=
  (decodeBytes (highByte (tableWord nbits w)) (lowByte (tableWord nbits w))).toOption

end Sys2Proof
end

