-- ==== Sys2Proof/Config.lean ====
section
/-! DEFINITION. What is fixed for the machine: the sizes of spec/00_scope.md R6, and the three values the spec leaves to a collaborator (R7), each a constant with no body. -/

namespace Sys2Proof.Config

/-- MEM_SIZE (R6, R100). -/
abbrev memSize : Nat := 4096

/-- PROGRAM_START, which is also PC after reset (R6, R111). -/
abbrev programStart : Nat := 0x200

/-- MAX_ROM (R6, R820). -/
abbrev maxRom : Nat := 3584

/-- FONT_BASE (R6, R130). -/
abbrev fontBase : Nat := 0x050

/-- The size of FONT, 16 glyphs of 5 bytes (R6, R130). -/
abbrev fontSize : Nat := 80

/-- STACK_DEPTH (R6, R120). -/
abbrev stackDepth : Nat := 16

/-- FB_WIDTH (R6, R121). -/
abbrev fbWidth : Nat := 64

/-- FB_HEIGHT (R6, R121). -/
abbrev fbHeight : Nat := 32

/-- FONT, the 80 bytes Reset writes at FONT_BASE (R7, R130, R131: a model must keep FONT a parameter). Free: no body.
DESIGN CHOICE, safe (log entry 5). -/
opaque font : Fin 80 → BitVec 8

/-- The random byte of the `n`-th draw, where the host handed none to the Step (R7, R470: under no law). Free: no body.
DESIGN CHOICE, safe (log entry 4). -/
opaque freeRand : Nat → BitVec 8

/-- KEY before the first SetKeys (R122: any 16 bits). Free: no body. DESIGN CHOICE, safe (log entry 7). -/
opaque powerOnKeys : BitVec 16

/-- The conventional font of R131, which the spec marks as general knowledge. The machine does not use it: it is here so
that a claim or a test that draws a glyph can name it as a premise. PRESUMED (log entry 6). -/
def defaultFont : List (BitVec 8) :=
  [0xF0, 0x90, 0x90, 0x90, 0xF0] ++ [0x20, 0x60, 0x20, 0x20, 0x70] ++ [0xF0, 0x10, 0xF0, 0x80, 0xF0]
  ++ [0xF0, 0x10, 0xF0, 0x10, 0xF0] ++ [0x90, 0x90, 0xF0, 0x10, 0x10] ++ [0xF0, 0x80, 0xF0, 0x10, 0xF0]
  ++ [0xF0, 0x80, 0xF0, 0x90, 0xF0] ++ [0xF0, 0x10, 0x20, 0x40, 0x40] ++ [0xF0, 0x90, 0xF0, 0x90, 0xF0]
  ++ [0xF0, 0x90, 0xF0, 0x10, 0xF0] ++ [0xF0, 0x90, 0xF0, 0x90, 0x90] ++ [0xE0, 0x90, 0xE0, 0x90, 0xE0]
  ++ [0xF0, 0x80, 0x80, 0x80, 0xF0] ++ [0xE0, 0x90, 0x90, 0x90, 0xE0] ++ [0xF0, 0x80, 0xF0, 0x80, 0xF0]
  ++ [0xF0, 0x80, 0xF0, 0x80, 0x80]

end Sys2Proof.Config
end

