-- ==== Sys2Proof/Machine/State.lean ====
section
/-! DEFINITION. The state of the core as plain data (spec/10_state.md), the reasons a step can stop, and the state after reset. -/

namespace Sys2Proof.Machine

/-- The fatal faults of R701. A meaning or the fetch raises one, and the machine TAKES it (`State.enterFault`, R710): the step
answers a next state that holds the fault record, so `step` and `exec` never answer `.fault` (log entry 1). -/
inductive Fault where
  /-- Code 1: the fetch of a Step with PC > 0xFFE (R224). Taken as a next state: safe. -/
  | fetchOutOfRange
  /-- Code 2: CALL with SP = 16 (R404). Taken as a next state: safe. -/
  | stackOverflow
  /-- Code 3: RET with SP = 0 (R401). Taken as a next state: safe. -/
  | stackUnderflow
  /-- Code 4: Fx33, Fx55, Fx65 or Dxyn at an address above 0xFFF (R223). Taken as a next state: safe. -/
  | dataOutOfRange
  deriving DecidableEq, Repr

/-- The reasons the model has no meaning for an instruction: none is left without one. -/
inductive Refusal where
  /-- An arm of `exec` that has no meaning yet would answer this; no arm does. Safe. -/
  | notModelled (mnemonic : String)
  deriving DecidableEq, Repr

/-- What `raise Fault(code, info)` carries: the fault and its address (R10, R700, R701). -/
structure Raise where
  cause : Fault
  addr : Nat
  deriving DecidableEq, Repr

/-- What a Step returns to the host (R150, R320). -/
inductive Status where
  /-- OK -/
  | ok
  /-- UNKNOWN_OPCODE, the diagnostic that changes no state (R350, R702) -/
  | unknownOpcode
  /-- FAULT(code) (R710, R711) -/
  | fault (code : BitVec 3)
  deriving DecidableEq, Repr

/-- FAULT, the fault record (R126). -/
structure FaultRecord where
  /-- HALTED, 1 bit -/
  halted : Bool
  /-- FAULT_CODE, 3 bits: 0 none, 1 to 4 as R701 -/
  code : BitVec 3
  /-- FAULT_PC: the address of the faulting instruction -/
  pc : Word
  /-- FAULT_OPCODE: its opcode, 0 for FETCH_OUT_OF_RANGE -/
  opcode : Word
  /-- FAULT_ADDR, 17 bits: the first out-of-range address, else 0 -/
  addr : BitVec 17
  deriving DecidableEq, Repr

/-- The fault record after Reset (R126, R160). -/
def FaultRecord.clear : FaultRecord := { halted := false, code := 0, pc := 0, opcode := 0, addr := 0 }

/-- MEM: the cells whose byte differs from the reset contents, at rising addresses (`Memory.wf`, Machine/Ops.lean). -/
abbrev Memory := List Host.Cell

/-- FB, 32 rows of 64 pixels: FB[k], k = y × 64 + x, is bit x of row y (R121, R550; log entry 16). -/
abbrev Pixels := Vector (BitVec 64) 32

/-- The state of the core: the tuple of 10_state.md, and the model's own `randIn` and `draws` (log entry 4). -/
structure State where
  /-- MEM (R100) -/
  mem : Memory
  /-- V0 to VF (R101) -/
  v : Vector Byte 16
  /-- I (R110) -/
  idx : Word
  /-- PC (R111) -/
  pc : Word
  /-- SP, 0 to 16 (R113; log entry 9) -/
  sp : Fin 17
  /-- STACK[0] to STACK[15] (R120) -/
  stack : Vector Word 16
  /-- DT (R114) -/
  dt : Byte
  /-- ST (R114) -/
  st : Byte
  /-- FB (R121) -/
  fb : Pixels
  /-- KEY: key k is bit k, 1 meaning pressed (R122) -/
  keys : BitVec 16
  /-- FAULT (R126) -/
  fault : FaultRecord
  /-- The model's own: the byte the host handed to the Step about to run, if it handed one (R7, R320). -/
  randIn : Option Byte
  /-- The model's own: how many random bytes have been read; picks the free value where none was handed over (R470). -/
  draws : Nat
  deriving DecidableEq, Repr

/-- The machine right after reset (R160, R800). Memory lists nothing: an unlisted address reads as the reset contents, FONT
among them (R100, R130). KEY is the free value `Config.powerOnKeys`, since Reset does not write it and before the first SetKeys
it is unspecified (R122; log entry 7). `randIn` and `draws` are the model's own: DESIGN CHOICE (log entry 4). -/
def State.reset : State where
  mem := []
  v := Vector.replicate 16 0
  idx := 0
  pc := 0x0200
  sp := 0
  stack := Vector.replicate 16 0
  dt := 0
  st := 0
  fb := Vector.replicate 32 0
  keys := Config.powerOnKeys
  fault := FaultRecord.clear
  randIn := none
  draws := 0

end Sys2Proof.Machine
end

