-- ==== Sys2Proof/Machine/Ops.lean ====
section
/-! DEFINITION. The named operations on memory, registers and the stack; taking a fault and the one way out of it; fetching (spec/20_memory.md, spec/60_exceptions.md, spec/30_encoding.md R320). -/

namespace Sys2Proof.Machine

/-! Memory. -/

/-- What an address no cell lists reads as: the reset contents, FONT at 0x050 to 0x09F and 0x00 elsewhere (R100, R130). -/
def Memory.unlisted (a : Nat) : Byte :=
  if h : 0x050 ≤ a ∧ a < 0x0A0 then Config.font ⟨a - 0x050, by omega⟩ else 0x00

/-- MEM[a], for any a below 4096. -/
def Memory.read (m : Memory) (a : Nat) : Byte :=
  match m with
  | [] => Memory.unlisted a
  | (k, b) :: rest => if k = a then b else Memory.read rest a

/-- List the byte `b` at `a`, keeping the addresses rising. -/
def Memory.put (m : Memory) (a : Nat) (b : Byte) : Memory :=
  match m with
  | [] => [(a, b)]
  | (k, c) :: rest =>
    if a < k then (a, b) :: (k, c) :: rest
    else if a = k then (a, b) :: rest
    else (k, c) :: Memory.put rest a b

/-- List nothing at `a`. -/
def Memory.drop (m : Memory) (a : Nat) : Memory :=
  match m with
  | [] => []
  | (k, c) :: rest => if a = k then Memory.drop rest a else (k, c) :: Memory.drop rest a

/-- MEM[a] <- b, in canonical form: the byte an unlisted address reads as is not listed. -/
def Memory.write (m : Memory) (a : Nat) (b : Byte) : Memory :=
  if b = Memory.unlisted a then Memory.drop m a else Memory.put m a b

/-- Every cell of `m` lies at `low` or above, in rising order and below 4096, and differs from the reset contents. -/
def Memory.wfFrom (low : Nat) (m : Memory) : Bool :=
  match m with
  | [] => true
  | (k, b) :: rest =>
    decide (low ≤ k) && decide (k < Config.memSize) && decide (b ≠ Memory.unlisted k) && Memory.wfFrom (k + 1) rest

/-- The canonical form of memory (log entry 8): equal memories are equal lists. -/
def Memory.wf (m : Memory) : Bool := Memory.wfFrom 0 m

/-- MemRead(addr, 1) (R220). -/
def memRead (m : Memory) (addr : Nat) : Except Raise Byte :=
  if addr > 0xFFF then .error ⟨.dataOutOfRange, addr⟩ else .ok (m.read addr)

/-- MemWrite(addr, 1, v) (R221). -/
def memWrite (m : Memory) (addr : Nat) (b : Byte) : Except Raise Memory :=
  if addr > 0xFFF then .error ⟨.dataOutOfRange, addr⟩ else .ok (m.write addr b)

/-- MemRead at base, base + 1, … for `n` bytes, in this order (R201, R223): the first address above 0xFFF raises. -/
def loadBytes (m : Memory) (base : Nat) : Nat → Except Raise (List Byte)
  | 0 => .ok []
  | n + 1 =>
    match memRead m base with
    | .error e => .error e
    | .ok b =>
      match loadBytes m (base + 1) n with
      | .error e => .error e
      | .ok rest => .ok (b :: rest)

/-- MemWrite of the bytes at base, base + 1, …, in this order (R201, R223): the first address above 0xFFF raises. -/
def storeBytes (m : Memory) (base : Nat) : List Byte → Except Raise Memory
  | [] => .ok m
  | b :: rest =>
    match memWrite m base b with
    | .error e => .error e
    | .ok m' => storeBytes m' (base + 1) rest

/-! Registers: every read and write of State's fields goes through these. -/

/-- V[x] (R101). -/
def State.reg (s : State) (x : Reg) : Byte := s.v.get x

/-- V[x] <- b (R101: no register is hardwired). -/
def State.setReg (s : State) (x : Reg) (b : Byte) : State := { s with v := s.v.set x b }

/-- V[x] <- b, then V[15] <- flag: the flag is the last write to VF (R102). -/
def State.setRegAndFlag (s : State) (x : Reg) (b flag : Byte) : State := (s.setReg x b).setReg 15 flag

/-- V[start], V[start + 1], … <- the bytes, in this order (R506). -/
def putRegs (v : Vector Byte 16) (start : Nat) : List Byte → Vector Byte 16
  | [] => v
  | b :: rest => putRegs (v.setIfInBounds start b) (start + 1) rest

/-- V0, V1, … <- the bytes. -/
def State.setRegsFrom0 (s : State) (bytes : List Byte) : State := { s with v := putRegs s.v 0 bytes }

/-- PC <- target (R10). -/
def State.setPc (s : State) (target : Word) : State := { s with pc := target }

/-- PC <- (p + 2) mod 2^16, the advance of every Step before dispatch (R320). -/
def State.advancePc (s : State) : State := s.setPc (s.pc + 2)

/-- A taken or untaken skip: PC <- PC + 2 if `taken` (R400). -/
def State.skipIf (s : State) (taken : Bool) : State := s.setPc (if taken then s.pc + 2 else s.pc)

/-- I <- a (R110). -/
def State.setIdx (s : State) (a : Word) : State := { s with idx := a }

/-- MEM <- m. -/
def State.setMem (s : State) (m : Memory) : State := { s with mem := m }

/-- FB <- p (R121). -/
def State.setFb (s : State) (p : Pixels) : State := { s with fb := p }

/-- DT <- b (R114). -/
def State.setDt (s : State) (b : Byte) : State := { s with dt := b }

/-- ST <- b (R114). -/
def State.setSt (s : State) (b : Byte) : State := { s with st := b }

/-- KEY <- k, which SetKeys alone does (R122, R735). -/
def State.setKeys (s : State) (k : BitVec 16) : State := { s with keys := k }

/-- The random byte of this Step: the one the host handed over, else a free value (R7, R320, R470; log entry 4). -/
def State.rand (s : State) : Byte := s.randIn.getD (Config.freeRand s.draws)

/-- The random byte has been read: the next one is another. -/
def State.takeRand (s : State) : State := { s with randIn := none, draws := s.draws + 1 }

/-- The host's input `rand` of a Step (R150, R320), none once the Step is over. -/
def State.setRandIn (s : State) (r : Option Byte) : State := { s with randIn := r }

/-! The stack (R113, R120, R404, R401). -/

/-- STACK[SP] <- ret; SP <- SP + 1; or STACK_OVERFLOW with SP = 16 (R404). -/
def State.push (s : State) (ret : Word) : Except Raise State :=
  if h : s.sp.val < 16 then
    .ok { s with stack := s.stack.set s.sp.val ret, sp := ⟨s.sp.val + 1, by omega⟩ }
  else .error ⟨.stackOverflow, 0⟩

/-- SP <- SP - 1; PC <- STACK[SP]; or STACK_UNDERFLOW with SP = 0. The slot keeps its value (R401). -/
def State.popPc (s : State) : Except Raise State :=
  if h : s.sp.val = 0 then .error ⟨.stackUnderflow, 0⟩
  else .ok { s with sp := ⟨s.sp.val - 1, by omega⟩, pc := s.stack[s.sp.val - 1]'(by omega) }

/-! Faults. -/

/-- FAULT_CODE of a fault (R126, R701). -/
def Fault.code : Fault → BitVec 3
  | .fetchOutOfRange => 1
  | .stackOverflow => 2
  | .stackUnderflow => 3
  | .dataOutOfRange => 4

/-- Fault entry, from the state at the START of the Step: nothing but the fault record changes, and PC still names the faulting
instruction (R710, R712). -/
def State.enterFault (s : State) (opcode : Word) (r : Raise) : State :=
  { s with
    fault := { halted := true, code := r.cause.code, pc := s.pc, opcode := opcode, addr := BitVec.ofNat 17 r.addr } }

/-- The end of a Step that began in `s`: the state the rule computed, or fault entry from `s` if the rule raised (R320, R700,
R712). -/
def State.finish (s : State) (opcode : Word) (result : Except Raise State) : Host.Outcome State Fault Refusal :=
  match result with
  | .ok t => .next t
  | .error r => .next (s.enterFault opcode r)

/-- Reset, the only way out of a fault (R714, R800): the reset state, with KEY kept (R122). The random source is the
collaborator's (R127): its input and the count of bytes drawn are kept too (log entry 4). -/
def State.afterReset (s : State) : State :=
  { State.reset with keys := s.keys, randIn := s.randIn, draws := s.draws }

/-! The fetch. -/

/-- FetchRead(addr) (R222, R224, R230): two bytes, big-endian, at any parity; out of range with either byte outside. -/
def fetchRead (m : Memory) (addr : Nat) : Except Raise Word :=
  if addr > 0xFFE then .error ⟨.fetchOutOfRange, if addr > 0xFFF then addr else addr + 1⟩
  else .ok (wordOfBytes (m.read addr) (m.read (addr + 1)))

/-- How a Step begins (R320, R713): it ends at once, with the state and the status named, or it runs an instruction. -/
inductive Begin where
  | ended (t : State) (status : Status)
  | run (i : Instr)
  deriving DecidableEq, Repr

/-- A Step up to dispatch: HALTED first (R711), then the fetch (R224, R710), then an UNKNOWN word, which only advances PC
(R350, R702), else the instruction. -/
def beginStep (s : State) : Begin :=
  if s.fault.halted then .ended s (.fault s.fault.code)
  else
    match fetchRead s.mem s.pc.toNat with
    | .error r => .ended (s.enterFault 0x0000 r) (.fault r.cause.code)
    | .ok op =>
      match decode op with
      | .error _ => .ended s.advancePc .unknownOpcode
      | .ok i => .run i

end Sys2Proof.Machine
end

