-- ==== Sys2Proof/Machine/Operands.lean ====
section
/-! DEFINITION. Operand forms: immediates, key numbers, decimal digits, the glyph address, the register list (spec/30_encoding.md R303, R304, and files 42 and 44). -/

namespace Sys2Proof.Machine

/-- zext_16(nnn) (R303). -/
def addrOperand (nnn : BitVec 12) : Word := nnn.setWidth 16

/-- zext_16 of a byte, where a byte is added to PC or I (R303, R409, R502). -/
def byteOperand (b : Byte) : Word := b.setWidth 16

/-- KEY[b[3:0]] (R600). -/
def State.keyPressed (s : State) (b : Byte) : Bool := s.keys.getLsbD (b.extractLsb' 0 4).toNat

/-- The lowest k with KEY[k] = 1, if any key is pressed (R603). -/
def lowestKey (keys : BitVec 16) : Option Nat := (List.range 16).find? (fun k => keys.getLsbD k)

/-- The decimal digits of a byte: hundreds, tens, ones (R504). -/
def decimalDigits (b : Byte) : List Byte :=
  [BitVec.ofNat 8 (b.toNat / 100), BitVec.ofNat 8 (b.toNat / 10 % 10), BitVec.ofNat 8 (b.toNat % 10)]

/-- 0x050 + 5 × b, the byte not masked (R503). -/
def glyphAddr (b : Byte) : Word := 0x0050 + 5 * byteOperand b

/-- V0 to Vx, in this order (R304, R505). -/
def State.regsTo (s : State) (x : Reg) : List Byte := s.v.toList.take (x.val + 1)

/-- How many registers or bytes Fx55 and Fx65 move: x + 1 (R505, R506). -/
def blockSize (x : Reg) : Nat := x.val + 1

end Sys2Proof.Machine
end

