-- ==== Sys2Proof/Machine/Alu.lean ====
section
/-! DEFINITION. The ALU: loads, arithmetic, bitwise, shifts, the random byte (spec/41_alu.md). Operands are read before any write, and the flag is written last (R102, R450). -/

namespace Sys2Proof.Machine

/-- LD Vx, kk (R451). -/
def execLdVxKk (x : Reg) (kk : Byte) (s : State) : Host.Outcome State Fault Refusal :=
  .next (s.advancePc.setReg x kk)

/-- ADD Vx, kk, no flag (R452). -/
def execAddVxKk (x : Reg) (kk : Byte) (s : State) : Host.Outcome State Fault Refusal :=
  .next (s.advancePc.setReg x (s.reg x + kk))

/-- LD Vx, Vy (R455). -/
def execLdVxVy (x y : Reg) (s : State) : Host.Outcome State Fault Refusal :=
  .next (s.advancePc.setReg x (s.reg y))

/-- OR Vx, Vy (R456). -/
def execOrVxVy (x y : Reg) (s : State) : Host.Outcome State Fault Refusal :=
  .next (s.advancePc.setReg x (s.reg x ||| s.reg y))

/-- AND Vx, Vy (R457). -/
def execAndVxVy (x y : Reg) (s : State) : Host.Outcome State Fault Refusal :=
  .next (s.advancePc.setReg x (s.reg x &&& s.reg y))

/-- XOR Vx, Vy (R458). -/
def execXorVxVy (x y : Reg) (s : State) : Host.Outcome State Fault Refusal :=
  .next (s.advancePc.setReg x (s.reg x ^^^ s.reg y))

/-- ADD Vx, Vy (R462). -/
def execAddVxVy (x y : Reg) (s : State) : Host.Outcome State Fault Refusal :=
  .next (s.advancePc.setRegAndFlag x (s.reg x + s.reg y) (carryFlag (s.reg x) (s.reg y)))

/-- SUB Vx, Vy (R463). -/
def execSubVxVy (x y : Reg) (s : State) : Host.Outcome State Fault Refusal :=
  .next (s.advancePc.setRegAndFlag x (s.reg x - s.reg y) (greaterFlag (s.reg x) (s.reg y)))

/-- SHR Vx, Vy: Vy is not read (R464). -/
def execShrVxVy (x _y : Reg) (s : State) : Host.Outcome State Fault Refusal :=
  .next (s.advancePc.setRegAndFlag x (s.reg x >>> 1) (lowBitFlag (s.reg x)))

/-- SUBN Vx, Vy (R465). -/
def execSubnVxVy (x y : Reg) (s : State) : Host.Outcome State Fault Refusal :=
  .next (s.advancePc.setRegAndFlag x (s.reg y - s.reg x) (greaterFlag (s.reg y) (s.reg x)))

/-- SHL Vx, Vy: Vy is not read (R466). -/
def execShlVxVy (x _y : Reg) (s : State) : Host.Outcome State Fault Refusal :=
  .next (s.advancePc.setRegAndFlag x (s.reg x <<< 1) (highBitFlag (s.reg x)))

/-- RND Vx, kk (R470): the Step's random byte, masked. -/
def execRndVxKk (x : Reg) (kk : Byte) (s : State) : Host.Outcome State Fault Refusal :=
  .next (s.advancePc.takeRand.setReg x (s.rand &&& kk))

end Sys2Proof.Machine
end

