-- ==== Sys2Proof/Machine/Display.lean ====
section
/-! DEFINITION. The framebuffer write controller (spec/43_display.md). -/

namespace Sys2Proof.Machine

/-- The pixels and the collision accumulator of a draw under way (R560). -/
structure Canvas where
  fb : Pixels
  coll : Bool
  deriving DecidableEq, Repr

/-- FB[k], for k below 2048 (R121). -/
def pixelAt (p : Pixels) (k : Nat) : Bool := if h : k / 64 < 32 then p[k / 64].getLsbD (k % 64) else false

/-- FB[k] <- FB[k] ^ 1 (R560). -/
def flipPixel (p : Pixels) (k : Nat) : Pixels :=
  if h : k / 64 < 32 then p.set (k / 64) (p[k / 64] ^^^ BitVec.twoPow 64 (k % 64)) else p

/-- All pixels 0 (R555). -/
def blankScreen : Pixels := Vector.replicate 32 0

/-- FB[py × 64 + px] (R550). -/
def pixelIndex (px py : Nat) : Nat := py * 64 + px

/-- if FB[k] = 1: coll <- 1; FB[k] <- FB[k] ^ 1 (R560). -/
def Canvas.togglePixel (c : Canvas) (k : Nat) : Canvas :=
  { fb := flipPixel c.fb k, coll := c.coll || pixelAt c.fb k }

/-- One column of a sprite row: bit 7 - col of the byte, toggling the pixel at the wrapped column and row if it is 1 (R560). -/
def Canvas.drawBit (cx row : Nat) (bits : Byte) (c : Canvas) (col : Nat) : Canvas :=
  if bits.getLsbD (7 - col) then c.togglePixel (pixelIndex ((cx + col) % 64) (row % 32)) else c

/-- One row of a sprite: columns 0 to 7, most significant bit first (R560). -/
def Canvas.drawRow (cx row : Nat) (bits : Byte) (c : Canvas) : Canvas :=
  (List.range 8).foldl (Canvas.drawBit cx row bits) c

/-- The rows of a sprite, from row `row` down (R560). -/
def Canvas.drawRows (cx row : Nat) (sprite : List Byte) (c : Canvas) : Canvas :=
  match sprite with
  | [] => c
  | bits :: rest => Canvas.drawRows cx (row + 1) rest (Canvas.drawRow cx row bits c)

/-- A whole sprite on the framebuffer, the accumulator starting at 0 (R560). -/
def drawSprite (fb : Pixels) (cx cy : Byte) (sprite : List Byte) : Canvas :=
  Canvas.drawRows cx.toNat cy.toNat sprite { fb := fb, coll := false }

/-- CLS (R555). -/
def execCls (s : State) : Host.Outcome State Fault Refusal :=
  .next (s.advancePc.setFb blankScreen)

/-- DRW Vx, Vy, n (R560): VF is the last write. -/
def execDrw (x y : Reg) (n : BitVec 4) (s : State) : Host.Outcome State Fault Refusal :=
  s.finish (encode (.drw x y n))
    ((loadBytes s.mem s.idx.toNat n.toNat).map (fun sprite =>
      let c := drawSprite s.fb (s.reg x) (s.reg y) sprite
      (s.advancePc.setFb c.fb).setReg 15 (collisionFlag c.coll)))

end Sys2Proof.Machine
end

