-- ==== Sys2Proof/Machine/FlowStack.lean ====
section
/-! DEFINITION. Control flow and stack (spec/40_flow_stack.md). Every meaning runs from the state at the START of the Step, PC being the instruction's own address; it advances PC first, as R320 says (log entry 2). -/

namespace Sys2Proof.Machine

/-- RET (R401). -/
def execRet (s : State) : Host.Outcome State Fault Refusal :=
  s.finish (encode .ret) s.advancePc.popPc

/-- SYS nnn, ignored (R402): the PC advance only. -/
def execSys (_nnn : BitVec 12) (s : State) : Host.Outcome State Fault Refusal :=
  .next s.advancePc

/-- JP nnn (R403). -/
def execJp (nnn : BitVec 12) (s : State) : Host.Outcome State Fault Refusal :=
  .next (s.advancePc.setPc (addrOperand nnn))

/-- CALL nnn (R404): the pushed value is the advanced PC. -/
def execCall (nnn : BitVec 12) (s : State) : Host.Outcome State Fault Refusal :=
  s.finish (encode (.call nnn)) ((s.advancePc.push s.advancePc.pc).map (fun t => t.setPc (addrOperand nnn)))

/-- SE Vx, kk (R405). -/
def execSeVxKk (x : Reg) (kk : Byte) (s : State) : Host.Outcome State Fault Refusal :=
  .next (s.advancePc.skipIf (s.reg x == kk))

/-- SNE Vx, kk (R406). -/
def execSneVxKk (x : Reg) (kk : Byte) (s : State) : Host.Outcome State Fault Refusal :=
  .next (s.advancePc.skipIf (s.reg x != kk))

/-- SE Vx, Vy (R407). -/
def execSeVxVy (x y : Reg) (s : State) : Host.Outcome State Fault Refusal :=
  .next (s.advancePc.skipIf (s.reg x == s.reg y))

/-- SNE Vx, Vy (R408). -/
def execSneVxVy (x y : Reg) (s : State) : Host.Outcome State Fault Refusal :=
  .next (s.advancePc.skipIf (s.reg x != s.reg y))

/-- JP V0, nnn (R409): not reduced to 12 bits. -/
def execJpV0Nnn (nnn : BitVec 12) (s : State) : Host.Outcome State Fault Refusal :=
  .next (s.advancePc.setPc (addrOperand nnn + byteOperand (s.reg 0)))

end Sys2Proof.Machine
end

