-- ==== Sys2Proof/Machine/IndexMemory.lean ====
section
/-! DEFINITION. The index register and memory transfer (spec/42_index_memory.md). An address is the integer I + k, not reduced (R223), and a fault leaves no partial result (R712). -/

namespace Sys2Proof.Machine

/-- LD I, nnn (R501). -/
def execLdINnn (nnn : BitVec 12) (s : State) : Host.Outcome State Fault Refusal :=
  .next (s.advancePc.setIdx (addrOperand nnn))

/-- ADD I, Vx: mod 2^16, VF not written (R502). -/
def execAddIVx (x : Reg) (s : State) : Host.Outcome State Fault Refusal :=
  .next (s.advancePc.setIdx (s.idx + byteOperand (s.reg x)))

/-- LD F, Vx (R503). -/
def execLdFVx (x : Reg) (s : State) : Host.Outcome State Fault Refusal :=
  .next (s.advancePc.setIdx (glyphAddr (s.reg x)))

/-- LD B, Vx (R504). -/
def execLdBVx (x : Reg) (s : State) : Host.Outcome State Fault Refusal :=
  s.finish (encode (.ldBVx x))
    ((storeBytes s.mem s.idx.toNat (decimalDigits (s.reg x))).map (fun m => s.advancePc.setMem m))

/-- LD [I], Vx: store V0 to Vx, then I <- I + x + 1 (R505). -/
def execLdMemVx (x : Reg) (s : State) : Host.Outcome State Fault Refusal :=
  s.finish (encode (.ldMemVx x))
    ((storeBytes s.mem s.idx.toNat (s.regsTo x)).map
      (fun m => (s.advancePc.setMem m).setIdx (s.idx + BitVec.ofNat 16 (blockSize x))))

/-- LD Vx, [I]: load V0 to Vx, I unchanged (R506). -/
def execLdVxMem (x : Reg) (s : State) : Host.Outcome State Fault Refusal :=
  s.finish (encode (.ldVxMem x))
    ((loadBytes s.mem s.idx.toNat (blockSize x)).map (fun bytes => s.advancePc.setRegsFrom0 bytes))

end Sys2Proof.Machine
end

