-- ==== Sys2Proof/Machine/TimersKeys.lean ====
section
/-! DEFINITION. Keys and timers (spec/44_timers_keys.md). -/

namespace Sys2Proof.Machine

/-- SKP Vx (R601). -/
def execSkp (x : Reg) (s : State) : Host.Outcome State Fault Refusal :=
  .next (s.advancePc.skipIf (s.keyPressed (s.reg x)))

/-- SKNP Vx (R602). -/
def execSknp (x : Reg) (s : State) : Host.Outcome State Fault Refusal :=
  .next (s.advancePc.skipIf (!s.keyPressed (s.reg x)))

/-- The state after LD Vx, K: PC rewound with no key pressed, else Vx <- the lowest pressed key (R603). -/
def waitForKey (x : Reg) (s : State) : State :=
  match lowestKey s.keys with
  | none => s.setPc (s.pc - 2)
  | some k => s.setReg x (BitVec.ofNat 8 k)

/-- LD Vx, K (R603). -/
def execLdVxK (x : Reg) (s : State) : Host.Outcome State Fault Refusal :=
  .next (waitForKey x s.advancePc)

/-- LD Vx, DT (R604). -/
def execLdVxDt (x : Reg) (s : State) : Host.Outcome State Fault Refusal :=
  .next (s.advancePc.setReg x s.dt)

/-- LD DT, Vx (R605). -/
def execLdDtVx (x : Reg) (s : State) : Host.Outcome State Fault Refusal :=
  .next (s.advancePc.setDt (s.reg x))

/-- LD ST, Vx (R606). -/
def execLdStVx (x : Reg) (s : State) : Host.Outcome State Fault Refusal :=
  .next (s.advancePc.setSt (s.reg x))

end Sys2Proof.Machine
end

