-- ==== Sys2Proof/Machine/Step.lean ====
section
/-! DEFINITION. The Step operation (spec/30_encoding.md R320), and where a test word is placed. -/

namespace Sys2Proof.Machine

/-- Step (R320): it ends before dispatch (HALTED, a fetch out of range, an UNKNOWN word), or it runs the instruction fetched at
PC. The Step's random byte is `State.rand` (log entry 4). -/
def step (s : State) : Host.Outcome State Fault Refusal :=
  match beginStep s with
  | .ended t _ => .next t
  | .run i => exec i s

/-- `s` with the word `w` stored where `step` fetches next, big-endian. A PC that cannot be fetched from is first set to the
program start, and a halted core first gets its fault record cleared: the fetch needs both, and elsewhere only memory changes
(log entry 12). -/
def State.withFetchWord (s : State) (nbits w : Nat) : State :=
  let a := if s.pc.toNat > 0xFFE then Config.programStart else s.pc.toNat
  { s with
    pc := BitVec.ofNat 16 a
    mem := (s.mem.write a (highByte (tableWord nbits w))).write (a + 1) (lowByte (tableWord nbits w))
    fault := if s.fault.halted then FaultRecord.clear else s.fault }

end Sys2Proof.Machine
end

