-- ==== Sys2Proof/Machine/HostOps.lean ====
section
/-! DEFINITION. The six operations the host drives the core through, and schedules of them (spec/10_state.md R150 to R152). `step` is one of them; the other five are the world outside a Step (log entry 10). -/

namespace Sys2Proof.Machine

/-- The status a Step from `s` returns (R150, R320): an output, not state. None only where the model would stop, which no state
reaches (log entry 3). -/
def stepStatus (s : State) : Option Status :=
  match beginStep s with
  | .ended _ status => some status
  | .run i =>
    match exec i s with
    | .next t => some (if t.fault.halted then .fault t.fault.code else .ok)
    | .fault _ => none
    | .refused _ => none

/-- One timer's decay, floored at 0 (R730). -/
def tickTimer (t : Byte) : Byte := if t.toNat > 0 then t - 1 else t

/-- TickTimers (R730). -/
def State.tickTimers (s : State) : State := { s with dt := tickTimer s.dt, st := tickTimer s.st }

/-- A byte string written at `a`, `a + 1`, … -/
def Memory.writeAll (m : Memory) (a : Nat) : List Byte → Memory
  | [] => m
  | b :: rest => Memory.writeAll (m.write a b) (a + 1) rest

/-- The sizes LoadRom accepts (R820). -/
def romAccepted (bytes : List Byte) : Bool := decide (0 < bytes.length) && decide (bytes.length ≤ Config.maxRom)

/-- LoadRom's state (R820): the bytes from 0x200 up, or no change. -/
def State.loadRom (s : State) (bytes : List Byte) : State :=
  if romAccepted bytes then s.setMem (s.mem.writeAll Config.programStart bytes) else s

/-- The operations of R150 with their inputs. -/
inductive HostOp where
  | reset
  | loadRom (bytes : List Byte)
  | setKeys (k : BitVec 16)
  | step (rand : Byte)
  | tickTimers
  | readFramebuffer
  deriving DecidableEq, Repr

/-- What an operation gives back to the host (R150). -/
inductive Reply where
  /-- Reset, SetKeys, TickTimers: no output -/
  | nothing
  /-- LoadRom: OK -/
  | romOk
  /-- LoadRom: REJECTED (R703) -/
  | romRejected
  /-- Step: its status -/
  | status (st : Status)
  /-- ReadFramebuffer: the 2048 bits FB[0] to FB[2047] (R740) -/
  | pixels (p : Pixels)
  /-- A Step on which the model stops: no state reaches it (log entry 3) -/
  | modelStopped
  deriving DecidableEq, Repr

/-- Step(rand) as the host calls it: the byte is handed over, the Step runs, and the byte is gone (R320, R7). -/
def hostStep (rand : Byte) (s : State) : State × Reply :=
  match step (s.setRandIn (some rand)), stepStatus (s.setRandIn (some rand)) with
  | .next t, some st => (t.setRandIn none, .status st)
  | _, _ => (s, .modelStopped)

/-- One operation, atomic (R151): the state it leaves and what it gives back. -/
def perform (op : HostOp) (s : State) : State × Reply :=
  match op with
  | .reset => (s.afterReset, .nothing)
  | .loadRom bytes => (s.loadRom bytes, if romAccepted bytes then .romOk else .romRejected)
  | .setKeys k => (s.setKeys k, .nothing)
  | .step rand => hostStep rand s
  | .tickTimers => (s.tickTimers, .nothing)
  | .readFramebuffer => (s, .pixels s.fb)

/-- A schedule: operations one at a time, in any order the host likes (R152). -/
def performAll : List HostOp → State → State
  | [], s => s
  | op :: ops, s => performAll ops (perform op s).1

end Sys2Proof.Machine
end

