-- ==== Sys2Proof/Safety.lean ====
section
/-! DEFINITION. What claims about runs are stated in: what a frame says, and the invariant every operation keeps. -/

namespace Sys2Proof.Machine

/-- The kinds of state besides the V registers. `random` is the model's own `randIn` and `draws` (log entry 4). -/
inductive Part where
  | memory | index | pc | stack | delayTimer | soundTimer | screen | keys | faultRecord | random
  deriving DecidableEq, Repr

/-- `t` holds in this part what `s` holds. Memory: every byte reads the same. -/
def Part.Same (p : Part) (s t : State) : Prop :=
  match p with
  | .memory => ∀ a, t.mem.read a = s.mem.read a
  | .index => t.idx = s.idx
  | .pc => t.pc = s.pc
  | .stack => t.sp = s.sp ∧ t.stack = s.stack
  | .delayTimer => t.dt = s.dt
  | .soundTimer => t.st = s.st
  | .screen => t.fb = s.fb
  | .keys => t.keys = s.keys
  | .faultRecord => t.fault = s.fault
  | .random => t.randIn = s.randIn ∧ t.draws = s.draws

/-- No part of the state changed from `s` to `t` but, at most, the parts named. -/
def PartsSameBut (parts : List Part) (s t : State) : Prop := ∀ p, p ∉ parts → p.Same s t

/-- No V register changed from `s` to `t` but, at most, those named. -/
def RegsSameBut (regs : List Reg) (s t : State) : Prop := ∀ r, r ∉ regs → t.reg r = s.reg r

/-- The frame rule (R12): from `s` to `t` nothing changed but, at most, the parts and the V registers named. -/
def UnchangedBut (parts : List Part) (regs : List Reg) (s t : State) : Prop :=
  RegsSameBut regs s t ∧ PartsSameBut parts s t

/-- The instruction's word is this number, and the decoder reads it back. -/
def Encodes (i : Instr) (word : Nat) : Prop := (encode i).toNat = word ∧ decode (BitVec.ofNat 16 word) = .ok i

/-- `t` is `s` after fault entry (R710, R712): the record names the code, the instruction at PC and the address, and nothing
else changed. -/
def Faulted (code : BitVec 3) (opcode : Word) (addr : Nat) (s t : State) : Prop :=
  t.fault.halted = true ∧ t.fault.code = code ∧ t.fault.pc = s.pc ∧ t.fault.opcode = opcode ∧
    t.fault.addr.toNat = addr ∧ UnchangedBut [.faultRecord] [] s t

/-- The word at PC, as the fetch composes it (R230). -/
def wordAtPc (s : State) : Word := wordOfBytes (s.mem.read s.pc.toNat) (s.mem.read (s.pc.toNat + 1))

/-- Bit (r, c) of the n-row sprite at I: row r, column c, most significant bit first (R560). -/
def spriteBit (s : State) (r c : Nat) : Bool := (s.mem.read (s.idx.toNat + r)).getLsbD (7 - c)

/-- A set bit of the n-row sprite at I falls, wrapped, on pixel (px, py) when drawn at (Vx, Vy) (R560). -/
def SpriteCovers (s : State) (x y : Reg) (n : BitVec 4) (px py : Nat) : Prop :=
  ∃ r, r < n.toNat ∧ ∃ c, c < 8 ∧ spriteBit s r c = true ∧
    px = ((s.reg x).toNat + c) % 64 ∧ py = ((s.reg y).toNat + r) % 32

/-- Pixel (px, py) is 1: FB[py × 64 + px] (R550). -/
def PixelSet (s : State) (px py : Nat) : Prop := pixelAt s.fb (py * 64 + px) = true

/-- A fault record as the core leaves it (R126, R701, R710): clear while the core runs, else one of the four faults, with the
PC and the address its row of R701 gives. -/
def FaultRecord.Coherent (f : FaultRecord) (pc : Word) : Prop :=
  if f.halted then
    f.pc = pc ∧
      ((f.code = 1 ∧ f.opcode = 0 ∧ f.pc.toNat > 0xFFE ∧ f.addr.toNat = max f.pc.toNat 0x1000) ∨
       (f.code = 2 ∧ f.addr = 0 ∧ ∃ nnn, f.opcode = encode (.call nnn)) ∨
       (f.code = 3 ∧ f.addr = 0 ∧ f.opcode = encode .ret) ∨
       (f.code = 4 ∧ 0x1000 ≤ f.addr.toNat ∧ f.addr.toNat ≤ 0xFFFF ∧
         ∃ x y n, f.opcode = encode (.ldBVx x) ∨ f.opcode = encode (.ldMemVx x) ∨ f.opcode = encode (.ldVxMem x) ∨
           f.opcode = encode (.drw x y n)))
  else f = FaultRecord.clear

/-- The invariant of the core: memory in canonical form; PC at most 0x10FE and every stack slot at most 0x1000, so PC never
wraps (R112); and a fault record of R701. -/
structure State.Inv (s : State) : Prop where
  memory : s.mem.wf = true
  pc : s.pc.toNat ≤ 0x10FE
  stack : ∀ j : Fin 16, (s.stack.get j).toNat ≤ 0x1000
  fault : s.fault.Coherent s.pc

/-- A safe Step: it ends with no fault (R701, R711). -/
def State.StepsSafely (s : State) : Prop := ∃ t, step s = .next t ∧ t.fault.halted = false

end Sys2Proof.Machine
end

