-- ==== Sys2Proof/Certificates/Slice0/Obligations.lean ====
section
/-! DEFINITION. The statements for the provers. Each docstring names the rule it formalises; where a clause rests on a decision the spec marks as its own (92_eei_decisions.md) or on a log entry, it says so. -/

open Sys2Proof Sys2Proof.Machine

/-! Encoding. -/

/-- Decoding the word of any well-formed instruction gives it back, every operand at every value (30_encoding.md sections 1, 4
and 5). Group 0 and the low nibbles of groups 5 and 9 follow the spec's decision D7. -/
def Obligations.DecodeOfEncode : Prop := ∀ i : Instr, i.wf = true → decode (encode i) = .ok i

/-- A word that decodes is the word of what it decodes to, so an instruction and its word determine each other
(30_encoding.md section 4; shrVxVy, shlVxVy and sys keep the fields they ignore: log entry 11). -/
def Obligations.EncodeOfDecode : Prop := ∀ (w : Word) (i : Instr), decode w = .ok i → i.wf = true ∧ encode i = w

/-- R340: a word that decodes lies in its instruction's row, and a word in a row decodes to an instruction of that row; the row
of SYS excludes the words of CLS and RET. -/
def Obligations.DecodeFollowsOpcodeTable : Prop :=
  (∀ (w : Word) (i : Instr), decode w = .ok i → w &&& i.row.mask = i.row.bits) ∧
  (∀ (w : Word) (i : Instr), w &&& i.row.mask = i.row.bits →
    (i.row = (Instr.sys 0).row → w ≠ 0x00E0 ∧ w ≠ 0x00EE) → ∃ j, decode w = .ok j ∧ j.row = i.row)

/-- Which words are UNKNOWN (30_encoding.md section 4): 5xyN and 9xyN with N ≠ 0, 8xyN with N one of 8 to D and F, and the
words of groups E and F whose low byte names no function. The nibble checks of groups 5 and 9 are the spec's decision D7. -/
def Obligations.UnknownWordsExactly : Prop :=
  ∀ w : Word, (∃ e, decode w = .error e) ↔
    ((w.toNat / 0x1000 = 0x5 ∨ w.toNat / 0x1000 = 0x9) ∧ w.toNat % 0x10 ≠ 0) ∨
    (w.toNat / 0x1000 = 0x8 ∧ w.toNat % 0x10 ∈ [0x8, 0x9, 0xA, 0xB, 0xC, 0xD, 0xF]) ∨
    (w.toNat / 0x1000 = 0xE ∧ w.toNat % 0x100 ∉ [0x9E, 0xA1]) ∨
    (w.toNat / 0x1000 = 0xF ∧
      w.toNat % 0x100 ∉ [0x07, 0x0A, 0x15, 0x18, 0x1E, 0x29, 0x33, 0x55, 0x65])

/-- Words written out from the patterns of 30_encoding.md section 5, one of each format, and four UNKNOWN ones. -/
def Obligations.SampleWordsDecode : Prop :=
  decode 0x00E0 = .ok .cls ∧ decode 0x0AE0 = .ok (.sys 0xAE0) ∧ decode 0x2210 = .ok (.call 0x210) ∧
  decode 0x7A05 = .ok (.addVxKk 0xA 0x05) ∧ decode 0x8F15 = .ok (.subVxVy 0xF 0x1) ∧
  decode 0xA250 = .ok (.ldINnn 0x250) ∧ decode 0xD125 = .ok (.drw 1 2 5) ∧ decode 0xE2A1 = .ok (.sknp 2) ∧
  decode 0xF155 = .ok (.ldMemVx 1) ∧ decode 0x5121 = .error .group5 ∧ decode 0x8008 = .error .group8 ∧
  decode 0xE000 = .error .groupE ∧ decode 0xF30B = .error .groupF

/-! The Step. -/

/-- 30_encoding.md section 3: a Step of a core that is not halted, with both bytes at PC inside memory and the word there
decoding to i, is exec of i at that very state; exec itself advances PC (log entry 2). -/
def Obligations.StepRunsDecodedInstruction : Prop :=
  ∀ (s : State) (i : Instr), s.fault.halted = false → s.pc.toNat ≤ 0xFFE → decode (wordAtPc s) = .ok i →
    step s = exec i s

/-- 30_encoding.md section 6 and 60_exceptions.md section 1 (D6): an UNKNOWN word only advances PC by 2, and the status is
UNKNOWN_OPCODE. -/
def Obligations.StepOnUnknownWord : Prop :=
  ∀ (s : State) (e : UnknownWord), s.fault.halted = false → s.pc.toNat ≤ 0xFFE → decode (wordAtPc s) = .error e →
    ∃ t, step s = .next t ∧ t.pc = s.pc + 2 ∧ UnchangedBut [.pc] [] s t ∧ stepStatus s = some .unknownOpcode

/-- 20_memory.md section 3 and 60_exceptions.md sections 1 and 2 (D3, D23): a fetch at PC > 0xFFE takes fault 1, with opcode 0
and the first byte address outside memory; nothing but the fault record changes. -/
def Obligations.FetchOutOfRangeFaults : Prop :=
  ∀ s : State, s.fault.halted = false → s.pc.toNat > 0xFFE →
    ∃ t, step s = .next t ∧
      Faulted 1 0 (if s.pc.toNat = 0xFFF then 0x1000 else s.pc.toNat) s t ∧ stepStatus s = some (.fault 1)

/-- 60_exceptions.md section 2 (D12): while HALTED a Step changes no state and returns FAULT(FAULT_CODE). -/
def Obligations.HaltedStepChangesNothing : Prop :=
  ∀ s : State, s.fault.halted = true → step s = .next s ∧ stepStatus s = some (.fault s.fault.code)

/-- Every Step of every state answers a next state: the core stops on nothing, its faults being states (log entry 1). -/
def Obligations.EveryStepAnswersNext : Prop := ∀ s : State, ∃ t, step s = .next t

/-- 10_state.md section 8 and 30_encoding.md section 3: every Step returns a status; it is FAULT exactly when the core is
halted after it, with the code of the record, and UNKNOWN_OPCODE exactly on a fetched UNKNOWN word (log entry 3). -/
def Obligations.StatusOfEveryStep : Prop :=
  ∀ s t : State, step s = .next t → ∃ st, stepStatus s = some st ∧
    (t.fault.halted = true → st = .fault t.fault.code) ∧
    (st = .unknownOpcode ↔ s.fault.halted = false ∧ s.pc.toNat ≤ 0xFFE ∧ ∃ e, decode (wordAtPc s) = .error e) ∧
    (t.fault.halted = false → st = .ok ∨ st = .unknownOpcode)

/-! The ALU. -/

/-- R451. -/
def Obligations.LoadImmediate : Prop :=
  ∀ (x : Reg) (kk : Byte) (s : State),
    Encodes (.ldVxKk x kk) (0x6000 + 0x100 * x.val + kk.toNat) ∧
    ∃ t, exec (.ldVxKk x kk) s = .next t ∧ t.reg x = kk ∧ t.pc = s.pc + 2 ∧ UnchangedBut [.pc] [x] s t

/-- R455. -/
def Obligations.CopyRegister : Prop :=
  ∀ (x y : Reg) (s : State),
    Encodes (.ldVxVy x y) (0x8000 + 0x100 * x.val + 0x10 * y.val) ∧
    ∃ t, exec (.ldVxVy x y) s = .next t ∧ t.reg x = s.reg y ∧ t.pc = s.pc + 2 ∧ UnchangedBut [.pc] [x] s t

/-- R452: mod 256, and VF is not written as a flag. -/
def Obligations.AddImmediateWraps : Prop :=
  ∀ (x : Reg) (kk : Byte) (s : State),
    Encodes (.addVxKk x kk) (0x7000 + 0x100 * x.val + kk.toNat) ∧
    ∃ t, exec (.addVxKk x kk) s = .next t ∧ (t.reg x).toNat = ((s.reg x).toNat + kk.toNat) % 256 ∧
      t.pc = s.pc + 2 ∧ UnchangedBut [.pc] [x] s t

/-- R456, R457, R458: bit by bit, and VF is not written unless it is the destination. -/
def Obligations.BitwiseOperations : Prop :=
  ∀ (x y : Reg) (s : State),
    Encodes (.orVxVy x y) (0x8001 + 0x100 * x.val + 0x10 * y.val) ∧
    Encodes (.andVxVy x y) (0x8002 + 0x100 * x.val + 0x10 * y.val) ∧
    Encodes (.xorVxVy x y) (0x8003 + 0x100 * x.val + 0x10 * y.val) ∧
    (∃ t, exec (.orVxVy x y) s = .next t ∧
      (∀ k < 8, (t.reg x).getLsbD k = ((s.reg x).getLsbD k || (s.reg y).getLsbD k)) ∧
      t.pc = s.pc + 2 ∧ UnchangedBut [.pc] [x] s t) ∧
    (∃ t, exec (.andVxVy x y) s = .next t ∧
      (∀ k < 8, (t.reg x).getLsbD k = ((s.reg x).getLsbD k && (s.reg y).getLsbD k)) ∧
      t.pc = s.pc + 2 ∧ UnchangedBut [.pc] [x] s t) ∧
    (∃ t, exec (.xorVxVy x y) s = .next t ∧
      (∀ k < 8, (t.reg x).getLsbD k = ((s.reg x).getLsbD k ^^ (s.reg y).getLsbD k)) ∧
      t.pc = s.pc + 2 ∧ UnchangedBut [.pc] [x] s t)

/-- R462: the sum mod 256 and the carry, from the values before the instruction; with x = 15 the carry is what VF holds. -/
def Obligations.AddSetsCarry : Prop :=
  ∀ (x y : Reg) (s : State),
    Encodes (.addVxVy x y) (0x8004 + 0x100 * x.val + 0x10 * y.val) ∧
    ∃ t, exec (.addVxVy x y) s = .next t ∧
      (x ≠ 15 → (t.reg x).toNat = ((s.reg x).toNat + (s.reg y).toNat) % 256) ∧
      (t.reg 15).toNat = (if (s.reg x).toNat + (s.reg y).toNat > 255 then 1 else 0) ∧
      t.pc = s.pc + 2 ∧ UnchangedBut [.pc] [x, 15] s t

/-- R463, R465: the difference mod 256, and VF = 1 exactly when the minuend is strictly greater. -/
def Obligations.SubtractionsSetGreaterFlag : Prop :=
  ∀ (x y : Reg) (s : State),
    Encodes (.subVxVy x y) (0x8005 + 0x100 * x.val + 0x10 * y.val) ∧
    Encodes (.subnVxVy x y) (0x8007 + 0x100 * x.val + 0x10 * y.val) ∧
    (∃ t, exec (.subVxVy x y) s = .next t ∧
      (x ≠ 15 → ((t.reg x).toNat : Int) = (((s.reg x).toNat : Int) - (s.reg y).toNat) % 256) ∧
      (t.reg 15).toNat = (if (s.reg x).toNat > (s.reg y).toNat then 1 else 0) ∧
      t.pc = s.pc + 2 ∧ UnchangedBut [.pc] [x, 15] s t) ∧
    (∃ t, exec (.subnVxVy x y) s = .next t ∧
      (x ≠ 15 → ((t.reg x).toNat : Int) = (((s.reg y).toNat : Int) - (s.reg x).toNat) % 256) ∧
      (t.reg 15).toNat = (if (s.reg y).toNat > (s.reg x).toNat then 1 else 0) ∧
      t.pc = s.pc + 2 ∧ UnchangedBut [.pc] [x, 15] s t)

/-- R464, R466: one place right or left, VF the bit shifted out; the result is the same for every y. -/
def Obligations.ShiftsSetShiftedOutBit : Prop :=
  ∀ (x y : Reg) (s : State),
    Encodes (.shrVxVy x y) (0x8006 + 0x100 * x.val + 0x10 * y.val) ∧
    Encodes (.shlVxVy x y) (0x800E + 0x100 * x.val + 0x10 * y.val) ∧
    (∃ t, exec (.shrVxVy x y) s = .next t ∧ (x ≠ 15 → (t.reg x).toNat = (s.reg x).toNat / 2) ∧
      (t.reg 15).toNat = (s.reg x).toNat % 2 ∧ t.pc = s.pc + 2 ∧ UnchangedBut [.pc] [x, 15] s t ∧
      ∀ y', exec (.shrVxVy x y') s = .next t) ∧
    (∃ t, exec (.shlVxVy x y) s = .next t ∧ (x ≠ 15 → (t.reg x).toNat = (s.reg x).toNat * 2 % 256) ∧
      (t.reg 15).toNat = (s.reg x).toNat / 128 ∧ t.pc = s.pc + 2 ∧ UnchangedBut [.pc] [x, 15] s t ∧
      ∀ y', exec (.shlVxVy x y') s = .next t)

/-- 41_alu.md section 5 (D19; the model's randIn and draws: log entry 4): Vx is the Step's random byte masked by kk, for every
byte handed over and, where none was, for whatever the free value is; and every byte the mask allows is a possible result. -/
def Obligations.RandomByteMasked : Prop :=
  ∀ (x : Reg) (kk : Byte) (s : State),
    Encodes (.rndVxKk x kk) (0xC000 + 0x100 * x.val + kk.toNat) ∧
    (∃ t, exec (.rndVxKk x kk) s = .next t ∧ t.reg x = s.rand &&& kk ∧
      t.pc = s.pc + 2 ∧ UnchangedBut [.pc, .random] [x] s t) ∧
    (∀ v, v &&& ~~~kk = 0 → ∃ r t, exec (.rndVxKk x kk) (s.setRandIn (some r)) = .next t ∧ t.reg x = v)

/-! The index register and memory. -/

/-- R501. -/
def Obligations.LoadIndex : Prop :=
  ∀ (nnn : BitVec 12) (s : State),
    Encodes (.ldINnn nnn) (0xA000 + nnn.toNat) ∧
    ∃ t, exec (.ldINnn nnn) s = .next t ∧ t.idx.toNat = nnn.toNat ∧ t.pc = s.pc + 2 ∧
      UnchangedBut [.pc, .index] [] s t

/-- 42_index_memory.md, LD I family Fx1E (the wrap mod 2^16 is the spec's decision D13): VF is not written. -/
def Obligations.AddToIndexWraps : Prop :=
  ∀ (x : Reg) (s : State),
    Encodes (.addIVx x) (0xF01E + 0x100 * x.val) ∧
    ∃ t, exec (.addIVx x) s = .next t ∧ t.idx.toNat = (s.idx.toNat + (s.reg x).toNat) % 65536 ∧
      t.pc = s.pc + 2 ∧ UnchangedBut [.pc, .index] [] s t

/-- 42_index_memory.md, Fx29 (that Vx is not masked is the spec's decision D15). -/
def Obligations.GlyphAddress : Prop :=
  ∀ (x : Reg) (s : State),
    Encodes (.ldFVx x) (0xF029 + 0x100 * x.val) ∧
    ∃ t, exec (.ldFVx x) s = .next t ∧ t.idx.toNat = 0x050 + 5 * (s.reg x).toNat ∧
      t.pc = s.pc + 2 ∧ UnchangedBut [.pc, .index] [] s t

/-- 42_index_memory.md, Fx33, with all three bytes inside memory, the reserved area included (the spec's decision D22): the
digits stand at I, I+1, I+2, every other byte is as it was; and memory stays canonical if it was, which is the model's own
clause (log entry 8, DESIGN CHOICE). (Outside memory: MemoryAccessFaults.) -/
def Obligations.StoreDecimalDigits : Prop :=
  ∀ (x : Reg) (s : State),
    Encodes (.ldBVx x) (0xF033 + 0x100 * x.val) ∧
    (s.idx.toNat + 2 ≤ 0xFFF →
      ∃ t, exec (.ldBVx x) s = .next t ∧
        (t.mem.read s.idx.toNat).toNat = (s.reg x).toNat / 100 ∧
        (t.mem.read (s.idx.toNat + 1)).toNat = (s.reg x).toNat / 10 % 10 ∧
        (t.mem.read (s.idx.toNat + 2)).toNat = (s.reg x).toNat % 10 ∧
        (∀ a, a < s.idx.toNat ∨ s.idx.toNat + 2 < a → t.mem.read a = s.mem.read a) ∧
        (s.mem.wf = true → t.mem.wf = true) ∧
        t.pc = s.pc + 2 ∧ UnchangedBut [.pc, .memory] [] s t)

/-- 42_index_memory.md, Fx55, with every byte inside memory, the reserved area included (the spec's decision D22): V[k] stands
at I + k for k up to x, every other byte is as it was, and I has moved by x + 1; and memory stays canonical if it was, which is
the model's own clause (log entry 8, DESIGN CHOICE). (Outside memory: MemoryAccessFaults.) -/
def Obligations.StoreRegisterBlock : Prop :=
  ∀ (x : Reg) (s : State),
    Encodes (.ldMemVx x) (0xF055 + 0x100 * x.val) ∧
    (s.idx.toNat + x.val ≤ 0xFFF →
      ∃ t, exec (.ldMemVx x) s = .next t ∧
        (∀ k : Reg, k ≤ x → t.mem.read (s.idx.toNat + k.val) = s.reg k) ∧
        (∀ a, a < s.idx.toNat ∨ s.idx.toNat + x.val < a → t.mem.read a = s.mem.read a) ∧
        (s.mem.wf = true → t.mem.wf = true) ∧
        t.idx.toNat = s.idx.toNat + x.val + 1 ∧ t.pc = s.pc + 2 ∧ UnchangedBut [.pc, .memory, .index] [] s t)

/-- 42_index_memory.md, Fx65, with every byte inside memory (that I is unchanged is the spec's decision D17): V[k] is the byte
at I + k for k up to x, and the other registers are as they were. (Outside memory: MemoryAccessFaults.) -/
def Obligations.LoadRegisterBlock : Prop :=
  ∀ (x : Reg) (s : State),
    Encodes (.ldVxMem x) (0xF065 + 0x100 * x.val) ∧
    (s.idx.toNat + x.val ≤ 0xFFF →
      ∃ t, exec (.ldVxMem x) s = .next t ∧
        (∀ k : Reg, k ≤ x → t.reg k = s.mem.read (s.idx.toNat + k.val)) ∧
        (∀ k : Reg, x < k → t.reg k = s.reg k) ∧
        t.pc = s.pc + 2 ∧ PartsSameBut [.pc] s t)

/-- 20_memory.md section 3, 42_index_memory.md, 43_display.md, 60_exceptions.md section 2 (D10, D11, D23; FAULT_OPCODE is the
instruction's word: log entry 11): Fx33, Fx55, Fx65 and Dxyn with some byte above 0xFFF take fault 4 with the first such
address, and change nothing but the fault record. -/
def Obligations.MemoryAccessFaults : Prop :=
  ∀ (x y : Reg) (n : BitVec 4) (s : State),
    (s.idx.toNat + 2 > 0xFFF →
      ∃ t, exec (.ldBVx x) s = .next t ∧ Faulted 4 (encode (.ldBVx x)) (max s.idx.toNat 0x1000) s t) ∧
    (s.idx.toNat + x.val > 0xFFF →
      ∃ t, exec (.ldMemVx x) s = .next t ∧ Faulted 4 (encode (.ldMemVx x)) (max s.idx.toNat 0x1000) s t) ∧
    (s.idx.toNat + x.val > 0xFFF →
      ∃ t, exec (.ldVxMem x) s = .next t ∧ Faulted 4 (encode (.ldVxMem x)) (max s.idx.toNat 0x1000) s t) ∧
    (1 ≤ n.toNat → s.idx.toNat + (n.toNat - 1) > 0xFFF →
      ∃ t, exec (.drw x y n) s = .next t ∧ Faulted 4 (encode (.drw x y n)) (max s.idx.toNat 0x1000) s t)

/-- 42_index_memory.md and 70_reset_and_hazards.md section 4: registers saved with Fx55 and loaded again with Fx65 from the same
address, memory untouched in between, hold what they held, whatever the other registers hold by then. -/
def Obligations.StoredBlockLoadsBack : Prop :=
  ∀ (x : Reg) (s t u : State), s.idx.toNat + x.val ≤ 0xFFF → exec (.ldMemVx x) s = .next t →
    u.mem = t.mem → u.idx = s.idx →
    ∃ v, exec (.ldVxMem x) u = .next v ∧ ∀ k : Reg, k ≤ x → v.reg k = s.reg k

/-- 20_memory.md section 6 (D28): a word stored with Fx55 is what a later Step at its address runs. -/
def Obligations.StoredWordIsFetched : Prop :=
  ∀ (x : Reg) (s t u : State) (i : Instr), 1 ≤ x.val → s.idx.toNat + x.val ≤ 0xFFF → exec (.ldMemVx x) s = .next t →
    decode (wordOfBytes (s.reg 0) (s.reg 1)) = .ok i →
    u.mem = t.mem → u.pc = s.idx → u.fault.halted = false → step u = exec i u

/-! Control flow and stack. -/

/-- 40_flow_stack.md, 0nnn: every SYS word does nothing but advance PC. -/
def Obligations.SysOnlyAdvances : Prop :=
  ∀ (nnn : BitVec 12) (s : State),
    (nnn ≠ 0x0E0 → nnn ≠ 0x0EE → Encodes (.sys nnn) nnn.toNat) ∧
    ∃ t, exec (.sys nnn) s = .next t ∧ t.pc = s.pc + 2 ∧ UnchangedBut [.pc] [] s t

/-- R403. -/
def Obligations.JumpAbsolute : Prop :=
  ∀ (nnn : BitVec 12) (s : State),
    Encodes (.jp nnn) (0x1000 + nnn.toNat) ∧
    ∃ t, exec (.jp nnn) s = .next t ∧ t.pc.toNat = nnn.toNat ∧ UnchangedBut [.pc] [] s t

/-- 40_flow_stack.md, Bnnn: nnn + V0, always V0, not reduced to 12 bits. -/
def Obligations.JumpPlusV0 : Prop :=
  ∀ (nnn : BitVec 12) (s : State),
    Encodes (.jpV0Nnn nnn) (0xB000 + nnn.toNat) ∧
    ∃ t, exec (.jpV0Nnn nnn) s = .next t ∧ t.pc.toNat = nnn.toNat + (s.reg 0).toNat ∧ UnchangedBut [.pc] [] s t

/-- R405, R406, R407, R408 (the patterns 5xy0 and 9xy0 follow the spec's decision D7): a taken skip leaves PC four bytes on, an untaken one two;
nothing else changes. (5xyN and 9xyN with N ≠ 0: UnknownWordsExactly.) -/
def Obligations.CompareSkips : Prop :=
  ∀ (x y : Reg) (kk : Byte) (s : State),
    Encodes (.seVxKk x kk) (0x3000 + 0x100 * x.val + kk.toNat) ∧
    Encodes (.sneVxKk x kk) (0x4000 + 0x100 * x.val + kk.toNat) ∧
    Encodes (.seVxVy x y) (0x5000 + 0x100 * x.val + 0x10 * y.val) ∧
    Encodes (.sneVxVy x y) (0x9000 + 0x100 * x.val + 0x10 * y.val) ∧
    (∃ t, exec (.seVxKk x kk) s = .next t ∧ t.pc = s.pc + (if s.reg x = kk then 4 else 2) ∧
      UnchangedBut [.pc] [] s t) ∧
    (∃ t, exec (.sneVxKk x kk) s = .next t ∧ t.pc = s.pc + (if s.reg x = kk then 2 else 4) ∧
      UnchangedBut [.pc] [] s t) ∧
    (∃ t, exec (.seVxVy x y) s = .next t ∧ t.pc = s.pc + (if s.reg x = s.reg y then 4 else 2) ∧
      UnchangedBut [.pc] [] s t) ∧
    (∃ t, exec (.sneVxVy x y) s = .next t ∧ t.pc = s.pc + (if s.reg x = s.reg y then 2 else 4) ∧
      UnchangedBut [.pc] [] s t)

/-- 40_flow_stack.md, 2nnn: with SP < 16 the address after the CALL goes to STACK[SP], SP rises by one, the other slots are as
they were, and PC is nnn; with SP = 16 it takes fault 2 (the spec's decision D8, entry D11 and D23). -/
def Obligations.CallPushesOrOverflows : Prop :=
  ∀ (nnn : BitVec 12) (s : State),
    Encodes (.call nnn) (0x2000 + nnn.toNat) ∧
    (∀ h : s.sp.val < 16, ∃ t, exec (.call nnn) s = .next t ∧
      t.stack.get ⟨s.sp.val, h⟩ = s.pc + 2 ∧ t.sp.val = s.sp.val + 1 ∧
      (∀ j : Fin 16, j.val ≠ s.sp.val → t.stack.get j = s.stack.get j) ∧
      t.pc.toNat = nnn.toNat ∧ UnchangedBut [.pc, .stack] [] s t) ∧
    (s.sp.val = 16 → ∃ t, exec (.call nnn) s = .next t ∧ Faulted 2 (encode (.call nnn)) 0 s t)

/-- 40_flow_stack.md, 00EE: with SP > 0, SP falls by one and PC is the slot it then names, no slot being written (D33); with
SP = 0 it takes fault 3 (the spec's decision D9, entry D11 and D23). -/
def Obligations.ReturnPopsOrUnderflows : Prop :=
  ∀ s : State,
    Encodes .ret 0x00EE ∧
    (∀ h : 0 < s.sp.val, ∃ t, exec .ret s = .next t ∧
      t.sp.val = s.sp.val - 1 ∧ t.pc = s.stack.get ⟨s.sp.val - 1, by have := s.sp.isLt; omega⟩ ∧
      t.stack = s.stack ∧ UnchangedBut [.pc, .stack] [] s t) ∧
    (s.sp.val = 0 → ∃ t, exec .ret s = .next t ∧ Faulted 3 0x00EE 0 s t)

/-- 40_flow_stack.md section 3: a RET that finds SP and STACK as the CALL left them comes back to the address after the CALL,
whatever else the subroutine changed; it changes PC and SP alone, no slot being cleared (the spec's decision D33). -/
def Obligations.CallThenReturn : Prop :=
  ∀ (nnn : BitVec 12) (s t u : State), s.sp.val < 16 → exec (.call nnn) s = .next t →
    u.sp = t.sp → u.stack = t.stack →
    ∃ v, exec .ret u = .next v ∧ v.pc = s.pc + 2 ∧ v.sp = s.sp ∧ v.stack = u.stack ∧ UnchangedBut [.pc, .stack] [] u v

/-! The framebuffer. -/

/-- R555. -/
def Obligations.ClearScreen : Prop :=
  ∀ s : State, Encodes .cls 0x00E0 ∧
    ∃ t, exec .cls s = .next t ∧ (∀ px < 64, ∀ py < 32, ¬ PixelSet t px py) ∧ t.pc = s.pc + 2 ∧
      UnchangedBut [.pc, .screen] [] s t

/-- 43_display.md, Dxyn, with every sprite byte inside memory or n = 0 (D27): each pixel a set sprite bit falls on is inverted,
each other pixel is as it was, and VF is 1 exactly when such a pixel was set before. (Outside memory: MemoryAccessFaults.) -/
def Obligations.DrawTogglesCoveredPixels : Prop :=
  ∀ (x y : Reg) (n : BitVec 4) (s : State),
    Encodes (.drw x y n) (0xD000 + 0x100 * x.val + 0x10 * y.val + n.toNat) ∧
    ((n = 0 ∨ s.idx.toNat + n.toNat ≤ 0x1000) →
      ∃ t, exec (.drw x y n) s = .next t ∧
        (∀ px < 64, ∀ py < 32, (PixelSet t px py ↔ ¬ (PixelSet s px py ↔ SpriteCovers s x y n px py))) ∧
        ((∃ px < 64, ∃ py < 32, SpriteCovers s x y n px py ∧ PixelSet s px py) → t.reg 15 = 1) ∧
        ((∀ px < 64, ∀ py < 32, SpriteCovers s x y n px py → ¬ PixelSet s px py) → t.reg 15 = 0) ∧
        t.pc = s.pc + 2 ∧ UnchangedBut [.pc, .screen] [15] s t)

/-- 43_display.md, draw twice: with x and y not 15, drawing the same sprite twice gives the framebuffer back; on a blank screen
the first draw leaves VF = 0 and the second VF = 1 exactly when the sprite has a set bit, else 0. -/
def Obligations.DrawTwiceRestoresScreen : Prop :=
  ∀ (x y : Reg) (n : BitVec 4) (s t : State), x ≠ 15 → y ≠ 15 → (n = 0 ∨ s.idx.toNat + n.toNat ≤ 0x1000) →
    exec (.drw x y n) s = .next t →
    ∃ u, exec (.drw x y n) t = .next u ∧ u.fb = s.fb ∧
      ((∀ px < 64, ∀ py < 32, ¬ PixelSet s px py) → t.reg 15 = 0 ∧
        ((∃ r < n.toNat, ∃ c < 8, spriteBit s r c = true) → u.reg 15 = 1) ∧
        ((∀ r < n.toNat, ∀ c < 8, spriteBit s r c = false) → u.reg 15 = 0))

/-! Keys and timers. -/

/-- 44_timers_keys.md, Ex9E and ExA1: the level of the key that the low nibble of Vx names (the nibble is the spec's decision
D14). -/
def Obligations.KeySkips : Prop :=
  ∀ (x : Reg) (s : State),
    Encodes (.skp x) (0xE09E + 0x100 * x.val) ∧ Encodes (.sknp x) (0xE0A1 + 0x100 * x.val) ∧
    (∃ t, exec (.skp x) s = .next t ∧
      t.pc = s.pc + (if s.keys.getLsbD ((s.reg x).toNat % 16) = true then 4 else 2) ∧ UnchangedBut [.pc] [] s t) ∧
    (∃ t, exec (.sknp x) s = .next t ∧
      t.pc = s.pc + (if s.keys.getLsbD ((s.reg x).toNat % 16) = true then 2 else 4) ∧ UnchangedBut [.pc] [] s t)

/-- 44_timers_keys.md, Fx0A: with no key pressed nothing changes, PC included; else Vx is the lowest pressed key (the spec's
decision D16) and PC has moved on. -/
def Obligations.WaitForKey : Prop :=
  ∀ (x : Reg) (s : State),
    Encodes (.ldVxK x) (0xF00A + 0x100 * x.val) ∧
    ((∀ k < 16, s.keys.getLsbD k = false) → exec (.ldVxK x) s = .next s) ∧
    (∀ k < 16, s.keys.getLsbD k = true → (∀ j < k, s.keys.getLsbD j = false) →
      ∃ t, exec (.ldVxK x) s = .next t ∧ (t.reg x).toNat = k ∧ t.pc = s.pc + 2 ∧ UnchangedBut [.pc] [x] s t)

/-- R604, R605, R606. -/
def Obligations.TimerInstructions : Prop :=
  ∀ (x : Reg) (s : State),
    Encodes (.ldVxDt x) (0xF007 + 0x100 * x.val) ∧ Encodes (.ldDtVx x) (0xF015 + 0x100 * x.val) ∧
    Encodes (.ldStVx x) (0xF018 + 0x100 * x.val) ∧
    (∃ t, exec (.ldVxDt x) s = .next t ∧ t.reg x = s.dt ∧ t.pc = s.pc + 2 ∧ UnchangedBut [.pc] [x] s t) ∧
    (∃ t, exec (.ldDtVx x) s = .next t ∧ t.dt = s.reg x ∧ t.pc = s.pc + 2 ∧ UnchangedBut [.pc, .delayTimer] [] s t) ∧
    (∃ t, exec (.ldStVx x) s = .next t ∧ t.st = s.reg x ∧ t.pc = s.pc + 2 ∧ UnchangedBut [.pc, .soundTimer] [] s t)

/-! The host's operations. -/

/-- R730: each timer falls by one, not below 0, on its own condition; nothing else changes, HALTED or not. -/
def Obligations.TickTimersDecays : Prop :=
  ∀ s : State, ∃ t, perform .tickTimers s = (t, .nothing) ∧ t.dt.toNat = s.dt.toNat - 1 ∧ t.st.toNat = s.st.toNat - 1 ∧
    UnchangedBut [.delayTimer, .soundTimer] [] s t

/-- 60_exceptions.md section 4: after k ticks a timer that held d holds d - k, and 0 once k reaches d. -/
def Obligations.TicksCountDown : Prop :=
  ∀ (k : Nat) (s : State),
    (performAll (List.replicate k .tickTimers) s).dt.toNat = s.dt.toNat - k ∧
    (performAll (List.replicate k .tickTimers) s).st.toNat = s.st.toNat - k ∧
    UnchangedBut [.delayTimer, .soundTimer] [] s (performAll (List.replicate k .tickTimers) s)

/-- R735: SetKeys replaces all 16 flags and writes nothing else; no Step writes KEY. -/
def Obligations.SetKeysReplacesKeys : Prop :=
  (∀ (k : BitVec 16) (s : State), ∃ t, perform (.setKeys k) s = (t, .nothing) ∧
    (∀ i < 16, t.keys.getLsbD i = k.getLsbD i) ∧ UnchangedBut [.keys] [] s t) ∧
  (∀ s t : State, step s = .next t → t.keys = s.keys)

/-- R740: ReadFramebuffer answers the 2048 bits and writes nothing. -/
def Obligations.ReadFramebufferAnswersPixels : Prop :=
  ∀ s : State, ∃ p, perform .readFramebuffer s = (s, .pixels p) ∧
    ∀ k < 2048, pixelAt p k = pixelAt s.fb k

/-- 70_reset_and_hazards.md section 2 (D38): 1 to 3584 bytes go to 0x200 and up and nothing else changes; any other length is
rejected with no change. That memory stays canonical if it was is the model's own clause (log entry 8, DESIGN CHOICE). -/
def Obligations.LoadRomCopiesOrRejects : Prop :=
  ∀ (bytes : List Byte) (s : State),
    (0 < bytes.length → bytes.length ≤ 3584 →
      ∃ t, perform (.loadRom bytes) s = (t, .romOk) ∧
        (∀ k, ∀ h : k < bytes.length, t.mem.read (0x200 + k) = bytes[k]) ∧
        (∀ a, a < 0x200 ∨ 0x200 + bytes.length ≤ a → t.mem.read a = s.mem.read a) ∧
        (s.mem.wf = true → t.mem.wf = true) ∧ UnchangedBut [.memory] [] s t) ∧
    (bytes.length = 0 ∨ 3584 < bytes.length → perform (.loadRom bytes) s = (s, .romRejected))

/-- 10_state.md section 9 and 70_reset_and_hazards.md section 1, of the operation Reset from any state, and of State.reset. That
there is a fault record to clear is the spec's decision D23, that Reset keeps KEY its D21 (State.reset's KEY is the free value
of log entry 7); FONT is the free parameter of log entry 5. -/
def Obligations.ResetLeavesResetValues : Prop :=
  ∀ s : State, ∃ t, perform .reset s = (t, .nothing) ∧ t.keys = s.keys ∧ ∀ u ∈ [t, State.reset],
    (∀ a < 0x1000, u.mem.read a = if h : 0x050 ≤ a ∧ a < 0x0A0 then Config.font ⟨a - 0x050, by omega⟩ else 0) ∧
    (∀ r, u.reg r = 0) ∧ u.idx = 0 ∧ u.pc = 0x0200 ∧ u.sp.val = 0 ∧ u.dt = 0 ∧ u.st = 0 ∧
    (∀ j, u.stack.get j = 0) ∧ (∀ px < 64, ∀ py < 32, ¬ PixelSet u px py) ∧
    u.fault.halted = false ∧ u.fault.code = 0 ∧ u.fault.pc = 0 ∧ u.fault.opcode = 0 ∧ u.fault.addr = 0

/-- 70_reset_and_hazards.md section 1: two Resets leave what one leaves, and after a Reset the core is not halted. -/
def Obligations.ResetIsIdempotent : Prop :=
  ∀ s : State, performAll [.reset, .reset] s = performAll [.reset] s ∧ (performAll [.reset] s).fault.halted = false

/-- 60_exceptions.md section 2 (D12): no operation but Reset changes the fault record of a halted core, or its PC, and a Step
changes nothing but the model's own random input (log entry 4, DESIGN CHOICE) and answers FAULT(FAULT_CODE). -/
def Obligations.OnlyResetLeavesHalted : Prop :=
  ∀ (op : HostOp) (s : State), s.fault.halted = true → op ≠ .reset →
    (perform op s).1.fault = s.fault ∧ (perform op s).1.pc = s.pc ∧
    (∀ r, op = .step r → (perform op s).2 = .status (.fault s.fault.code) ∧ UnchangedBut [.random] [] s (perform op s).1)

/-- 30_encoding.md section 3 (log entries 3 and 4): Step(rand) as the host calls it is a Step with the byte handed over, its
status is handed back, and the byte is gone; a fetched Cxkk writes that byte masked. -/
def Obligations.HostStepHandsOverRand : Prop :=
  ∀ (r : Byte) (s : State), ∃ t st,
    step (s.setRandIn (some r)) = .next t ∧ stepStatus (s.setRandIn (some r)) = some st ∧
    perform (.step r) s = (t.setRandIn none, .status st) ∧
    (∀ x kk, s.fault.halted = false → s.pc.toNat ≤ 0xFFE → decode (wordAtPc s) = .ok (.rndVxKk x kk) →
      st = .ok ∧ t.reg x = r &&& kk)

/-! Rules about the whole machine. -/

/-- The invariant of log entry 15 (memory canonical; the bounds of 10_state.md section 4 on PC and return addresses; the fault
record of 60_exceptions.md section 1) is kept by every Step. -/
def Obligations.StepKeepsInvariant : Prop := ∀ s t : State, s.Inv → step s = .next t → t.Inv

/-- The invariant holds right after reset. -/
def Obligations.ResetMeetsInvariant : Prop := State.reset.Inv

/-- The invariant is kept by every schedule of the six operations, in any order (10_state.md section 8). -/
def Obligations.SchedulesKeepInvariant : Prop := ∀ (ops : List HostOp) (s : State), s.Inv → (performAll ops s).Inv

/-- 60_exceptions.md section 1: the instructions that change the fault record, and the conditions they do it under; no other
instruction and no other condition does. -/
def Obligations.OnlyTheseFaultsArise : Prop :=
  ∀ (i : Instr) (s t : State), s.fault.halted = false → exec i s = .next t →
    (t.fault.halted = true ↔
      ((∃ nnn, i = .call nnn) ∧ s.sp.val = 16) ∨ (i = .ret ∧ s.sp.val = 0) ∨
      ((∃ x, i = .ldBVx x) ∧ s.idx.toNat + 2 > 0xFFF) ∨
      (∃ x, (i = .ldMemVx x ∨ i = .ldVxMem x) ∧ s.idx.toNat + x.val > 0xFFF) ∨
      (∃ x y n, i = .drw x y n ∧ n ≠ 0 ∧ s.idx.toNat + n.toNat > 0x1000)) ∧
    (t.fault.halted = false → t.fault = s.fault)

/-- 60_exceptions.md section 2 (D11, D23): a Step that halts the core changes nothing but the fault record, which names PC and
one of the four codes. -/
def Obligations.FaultsArePrecise : Prop :=
  ∀ s t : State, s.fault.halted = false → step s = .next t → t.fault.halted = true →
    t = { s with fault := t.fault } ∧ t.fault.pc = s.pc ∧ t.fault.code ∈ [1, 2, 3, 4]

/-- 10_state.md sections 4 and 5 and 20_memory.md section 1: which instructions write memory, I, the stack, the timers, the
framebuffer; none writes KEY. -/
def Obligations.WhoWritesEachPart : Prop :=
  ∀ (i : Instr) (s t : State), exec i s = .next t →
    (¬ Part.memory.Same s t → ∃ x, i = .ldBVx x ∨ i = .ldMemVx x) ∧
    (¬ Part.index.Same s t → ∃ nnn x, i = .ldINnn nnn ∨ i = .addIVx x ∨ i = .ldFVx x ∨ i = .ldMemVx x) ∧
    (¬ Part.stack.Same s t → ∃ nnn, i = .call nnn ∨ i = .ret) ∧
    (¬ Part.delayTimer.Same s t → ∃ x, i = .ldDtVx x) ∧
    (¬ Part.soundTimer.Same s t → ∃ x, i = .ldStVx x) ∧
    (¬ Part.screen.Same s t → ∃ x y n, i = .cls ∨ i = .drw x y n) ∧
    Part.keys.Same s t

/-- 10_state.md section 2: VF is written only by the six flag-writing instructions and as an ordinary destination, Vx with
x = 15; and a flag is 0 or 1, for every x, unless the draw faults. -/
def Obligations.VfAsFlag : Prop :=
  ∀ (i : Instr) (s t : State), exec i s = .next t →
    (t.reg 15 ≠ s.reg 15 →
      (∃ x y n, i = .addVxVy x y ∨ i = .subVxVy x y ∨ i = .shrVxVy x y ∨ i = .subnVxVy x y ∨ i = .shlVxVy x y ∨
        i = .drw x y n) ∨
      (∃ y kk, i = .ldVxKk 15 kk ∨ i = .addVxKk 15 kk ∨ i = .ldVxVy 15 y ∨ i = .orVxVy 15 y ∨ i = .andVxVy 15 y ∨
        i = .xorVxVy 15 y ∨ i = .rndVxKk 15 kk ∨ i = .ldVxDt 15 ∨ i = .ldVxK 15 ∨ i = .ldVxMem 15)) ∧
    ((∃ x y n, i = .addVxVy x y ∨ i = .subVxVy x y ∨ i = .shrVxVy x y ∨ i = .subnVxVy x y ∨ i = .shlVxVy x y ∨
        (i = .drw x y n ∧ (n = 0 ∨ s.idx.toNat + n.toNat ≤ 0x1000))) →
      t.reg 15 = 0 ∨ t.reg 15 = 1)

/-- 41_alu.md section 5 and 10_state.md sections 4 and 5: only Cxkk reads the random byte; only Ex9E, ExA1 and Fx0A read KEY; no
instruction reads ST. Each clause compares two runs that differ only in that input. -/
def Obligations.InputsReadOnlyByTheirInstructions : Prop :=
  ∀ (i : Instr) (s t : State), exec i s = .next t →
    ((∀ x kk, i ≠ .rndVxKk x kk) → ∀ r, exec i (s.setRandIn r) = .next (t.setRandIn r)) ∧
    ((∀ x, i ≠ .skp x ∧ i ≠ .sknp x ∧ i ≠ .ldVxK x) → ∀ k, exec i (s.setKeys k) = .next (t.setKeys k)) ∧
    ((∀ x, i ≠ .ldStVx x) → ∀ b, exec i (s.setSt b) = .next (t.setSt b)) ∧
    ((∃ x, i = .ldStVx x) → ∀ b, exec i (s.setSt b) = .next t)

/-- 60_exceptions.md section 4 (no coupling to instructions) and 10_state.md section 8: a tick before an instruction that names
no timer is a tick after it. -/
def Obligations.TickCommutesWithOtherInstructions : Prop :=
  ∀ (i : Instr) (s t : State), (∀ x, i ≠ .ldVxDt x ∧ i ≠ .ldDtVx x ∧ i ≠ .ldStVx x) → exec i s = .next t →
    exec i s.tickTimers = .next t.tickTimers
end

