-- ==== Sys2Proof/Laws/Decode.lean ====
section
/-! SUPPORT. The fields of a word put together from fields, and of the two bytes of a word (spec/30_encoding.md R301, R302). -/

namespace Sys2Proof

/-- Bits of a concatenation that lie in its upper part. -/
theorem extract_append_high {m n : Nat} (a : BitVec m) (b : BitVec n) (start len : Nat) (h : n ≤ start) :
    (a ++ b).extractLsb' start len = a.extractLsb' (start - n) len := by
  ext i hi
  simp only [BitVec.getElem_extractLsb', BitVec.getLsbD_append]
  rw [if_neg (by omega)]
  congr 1
  omega

/-- Bits of a concatenation that lie in its lower part. -/
theorem extract_append_low {m n : Nat} (a : BitVec m) (b : BitVec n) (start len : Nat) (h : start + len ≤ n) :
    (a ++ b).extractLsb' start len = b.extractLsb' start len := by
  ext i hi
  simp only [BitVec.getElem_extractLsb', BitVec.getLsbD_append]
  rw [if_pos (by omega)]

theorem extract_all {n : Nat} (a : BitVec n) : a.extractLsb' 0 n = a := by
  ext i hi
  simp

/-- Two neighbouring pieces of a vector, put together again. -/
theorem append_extract {w : Nat} (a : BitVec w) (start n m : Nat) :
    a.extractLsb' (start + n) m ++ a.extractLsb' start n = a.extractLsb' start (m + n) := by
  ext i hi
  simp only [BitVec.getElem_extractLsb', BitVec.getElem_append]
  split
  · rfl
  · congr 1; omega

/-- A word is the big-endian word of its two bytes (R230). -/
@[simp] theorem wordOfBytes_high_low (w : Word) : wordOfBytes (highByte w) (lowByte w) = w := by
  have := append_extract w 0 8 8
  simp only [Nat.zero_add] at this
  exact this.trans (extract_all w)

@[simp] theorem highByte_wordOfBytes (hi lo : Byte) : highByte (wordOfBytes hi lo) = hi := by
  rw [highByte, wordOfBytes, extract_append_high _ _ _ _ (by decide)]
  exact extract_all hi

@[simp] theorem lowByte_wordOfBytes (hi lo : Byte) : lowByte (wordOfBytes hi lo) = lo := by
  rw [lowByte, wordOfBytes, extract_append_low _ _ _ _ (by decide)]
  exact extract_all lo

/-! F-nnn words. -/

@[simp] theorem fieldG_formNnn (g : BitVec 4) (nnn : BitVec 12) : fieldG (formNnn g nnn) = g := by
  rw [fieldG, formNnn, extract_append_high _ _ _ _ (by decide)]
  exact extract_all g

@[simp] theorem fieldNnn_formNnn (g : BitVec 4) (nnn : BitVec 12) : fieldNnn (formNnn g nnn) = nnn := by
  rw [fieldNnn, formNnn, extract_append_low _ _ _ _ (by decide)]
  exact extract_all nnn

/-! F-xkk words. -/

@[simp] theorem fieldG_formXkk (g : BitVec 4) (x : Reg) (kk : Byte) : fieldG (formXkk g x kk) = g := by
  rw [fieldG, formXkk, extract_append_high _ _ _ _ (by decide), extract_append_high _ _ _ _ (by decide)]
  exact extract_all g

@[simp] theorem fieldX_formXkk (g : BitVec 4) (x : Reg) (kk : Byte) : fieldX (formXkk g x kk) = x := by
  rw [fieldX, formXkk, extract_append_high _ _ _ _ (by decide), extract_append_low _ _ _ _ (by decide)]
  exact congrArg BitVec.toFin (extract_all (BitVec.ofFin (w := 4) x))

@[simp] theorem fieldKk_formXkk (g : BitVec 4) (x : Reg) (kk : Byte) : fieldKk (formXkk g x kk) = kk := by
  rw [fieldKk, formXkk, extract_append_low _ _ _ _ (by decide)]
  exact extract_all kk

/-! F-xyf and F-xyn words. -/

@[simp] theorem fieldG_formXyn (g : BitVec 4) (x y : Reg) (n : BitVec 4) : fieldG (formXyn g x y n) = g := by
  rw [fieldG, formXyn, extract_append_high _ _ _ _ (by decide), extract_append_high _ _ _ _ (by decide),
    extract_append_high _ _ _ _ (by decide)]
  exact extract_all g

@[simp] theorem fieldX_formXyn (g : BitVec 4) (x y : Reg) (n : BitVec 4) : fieldX (formXyn g x y n) = x := by
  rw [fieldX, formXyn, extract_append_high _ _ _ _ (by decide), extract_append_high _ _ _ _ (by decide),
    extract_append_low _ _ _ _ (by decide)]
  exact congrArg BitVec.toFin (extract_all (BitVec.ofFin (w := 4) x))

@[simp] theorem fieldY_formXyn (g : BitVec 4) (x y : Reg) (n : BitVec 4) : fieldY (formXyn g x y n) = y := by
  rw [fieldY, formXyn, extract_append_high _ _ _ _ (by decide), extract_append_low _ _ _ _ (by decide)]
  exact congrArg BitVec.toFin (extract_all (BitVec.ofFin (w := 4) y))

@[simp] theorem fieldN_formXyn (g : BitVec 4) (x y : Reg) (n : BitVec 4) : fieldN (formXyn g x y n) = n := by
  rw [fieldN, formXyn, extract_append_low _ _ _ _ (by decide)]
  exact extract_all n

/-! A word from its fields. -/

theorem formNnn_fields (w : Word) : formNnn (fieldG w) (fieldNnn w) = w :=
  (append_extract w 0 12 4).trans (extract_all w)

theorem formXkk_fields (w : Word) : formXkk (fieldG w) (fieldX w) (fieldKk w) = w := by
  have h : fieldG w ++ BitVec.ofFin (w := 4) (fieldX w) = w.extractLsb' 8 8 := append_extract w 8 4 4
  rw [formXkk, h]
  exact (append_extract w 0 8 8).trans (extract_all w)

theorem formXyn_fields (w : Word) : formXyn (fieldG w) (fieldX w) (fieldY w) (fieldN w) = w := by
  have h : fieldG w ++ BitVec.ofFin (w := 4) (fieldX w) = w.extractLsb' 8 8 := append_extract w 8 4 4
  have h' : w.extractLsb' 8 8 ++ BitVec.ofFin (w := 4) (fieldY w) = w.extractLsb' 4 12 := append_extract w 4 4 8
  rw [formXyn, h, h']
  exact (append_extract w 0 4 12).trans (extract_all w)

/-! What the field equalities of a decoder branch say about the word. -/

theorem eq_formNnn {w : Word} {g : BitVec 4} (hg : fieldG w = g) : formNnn g (fieldNnn w) = w := by
  rw [← hg, formNnn_fields]

theorem eq_formXkk {w : Word} {g : BitVec 4} {kk : Byte} (hg : fieldG w = g) (hk : fieldKk w = kk) :
    formXkk g (fieldX w) kk = w := by
  rw [← hg, ← hk, formXkk_fields]

theorem eq_formXyn {w : Word} {g n : BitVec 4} (hg : fieldG w = g) (hn : fieldN w = n) :
    formXyn g (fieldX w) (fieldY w) n = w := by
  rw [← hg, ← hn, formXyn_fields]

/-! Masking a word of each form by the masks of the opcode table (R340): the fixed nibbles stay, the operands go. -/

theorem and_append {m n : Nat} (a c : BitVec m) (b d : BitVec n) : (a ++ b) &&& (c ++ d) = (a &&& c) ++ (b &&& d) := by
  ext i hi
  simp only [BitVec.getElem_and, BitVec.getElem_append]
  split <;> simp

theorem and_zero_lit {n : Nat} (a : BitVec n) : a &&& 0 = 0 := BitVec.and_zero

theorem formNnn_and (g : BitVec 4) (nnn : BitVec 12) : formNnn g nnn &&& 0xF000 = formNnn g 0 := by
  refine (and_append g 0xF nnn 0).trans ?_
  rw [show g &&& 0xF = g from BitVec.and_allOnes, and_zero_lit]; rfl

theorem formXkk_and (g : BitVec 4) (x : Reg) (kk : Byte) : formXkk g x kk &&& 0xF000 = formXkk g 0 0 := by
  refine (and_append (g ++ BitVec.ofFin (w := 4) x) 0xF0 kk 0).trans ?_
  rw [show (0xF0 : BitVec 8) = (0xF : BitVec 4) ++ (0 : BitVec 4) from rfl, and_append,
    show g &&& 0xF = g from BitVec.and_allOnes, and_zero_lit, and_zero_lit]; rfl

theorem formXff_and (g : BitVec 4) (x : Reg) (kk : Byte) : formXkk g x kk &&& 0xF0FF = formXkk g 0 kk := by
  refine (and_append (g ++ BitVec.ofFin (w := 4) x) 0xF0 kk 0xFF).trans ?_
  rw [show (0xF0 : BitVec 8) = (0xF : BitVec 4) ++ (0 : BitVec 4) from rfl, and_append,
    show g &&& 0xF = g from BitVec.and_allOnes, and_zero_lit, show kk &&& 0xFF = kk from BitVec.and_allOnes]; rfl

theorem formXyn_split (g : BitVec 4) (x y : Reg) (n : BitVec 4) :
    formXyn g x y n = formXkk g x (BitVec.ofFin (w := 4) y ++ n) := by
  rw [formXyn, formXkk]
  ext i hi
  simp only [BitVec.getElem_append]
  by_cases h1 : i < 4
  · simp [h1, show i < 8 by omega]
  · by_cases h2 : i < 8
    · simp [h1, h2, show i - 4 < 4 by omega]
    · simp [h1, h2, show ¬ i - 4 < 4 by omega, show i - 4 - 4 = i - 8 by omega]

theorem formXyf_and (g : BitVec 4) (x y : Reg) (n : BitVec 4) : formXyn g x y n &&& 0xF00F = formXyn g 0 0 n := by
  refine (and_append (g ++ BitVec.ofFin (w := 4) x ++ BitVec.ofFin (w := 4) y) 0xF00 n 0xF).trans ?_
  rw [show (0xF00 : BitVec 12) = (0xF : BitVec 4) ++ (0 : BitVec 4) ++ (0 : BitVec 4) from rfl, and_append, and_append,
    show g &&& 0xF = g from BitVec.and_allOnes, and_zero_lit, and_zero_lit,
    show n &&& 0xF = n from BitVec.and_allOnes]; rfl

theorem formXyn_and (g : BitVec 4) (x y : Reg) (n : BitVec 4) : formXyn g x y n &&& 0xF000 = formXyn g 0 0 0 := by
  rw [formXyn_split, formXyn_split, formXkk_and]; rfl

end Sys2Proof
end

