-- ==== Sys2Proof/Laws/State.lean ====
section
/-! SUPPORT. What each named update of State leaves in each field, by definition, and the register laws. -/

namespace Sys2Proof.Machine

/-! setReg -/

@[simp] theorem setReg_mem (s : State) (x : Reg) (b : Byte) : (s.setReg x b).mem = s.mem := rfl
@[simp] theorem setReg_v (s : State) (x : Reg) (b : Byte) : (s.setReg x b).v = s.v.set x b := rfl
@[simp] theorem setReg_idx (s : State) (x : Reg) (b : Byte) : (s.setReg x b).idx = s.idx := rfl
@[simp] theorem setReg_pc (s : State) (x : Reg) (b : Byte) : (s.setReg x b).pc = s.pc := rfl
@[simp] theorem setReg_sp (s : State) (x : Reg) (b : Byte) : (s.setReg x b).sp = s.sp := rfl
@[simp] theorem setReg_stack (s : State) (x : Reg) (b : Byte) : (s.setReg x b).stack = s.stack := rfl
@[simp] theorem setReg_dt (s : State) (x : Reg) (b : Byte) : (s.setReg x b).dt = s.dt := rfl
@[simp] theorem setReg_st (s : State) (x : Reg) (b : Byte) : (s.setReg x b).st = s.st := rfl
@[simp] theorem setReg_fb (s : State) (x : Reg) (b : Byte) : (s.setReg x b).fb = s.fb := rfl
@[simp] theorem setReg_keys (s : State) (x : Reg) (b : Byte) : (s.setReg x b).keys = s.keys := rfl
@[simp] theorem setReg_fault (s : State) (x : Reg) (b : Byte) : (s.setReg x b).fault = s.fault := rfl
@[simp] theorem setReg_randIn (s : State) (x : Reg) (b : Byte) : (s.setReg x b).randIn = s.randIn := rfl
@[simp] theorem setReg_draws (s : State) (x : Reg) (b : Byte) : (s.setReg x b).draws = s.draws := rfl

/-! setRegsFrom0 -/

@[simp] theorem setRegsFrom0_mem (s : State) (bs : List Byte) : (s.setRegsFrom0 bs).mem = s.mem := rfl
@[simp] theorem setRegsFrom0_v (s : State) (bs : List Byte) : (s.setRegsFrom0 bs).v = putRegs s.v 0 bs := rfl
@[simp] theorem setRegsFrom0_idx (s : State) (bs : List Byte) : (s.setRegsFrom0 bs).idx = s.idx := rfl
@[simp] theorem setRegsFrom0_pc (s : State) (bs : List Byte) : (s.setRegsFrom0 bs).pc = s.pc := rfl
@[simp] theorem setRegsFrom0_sp (s : State) (bs : List Byte) : (s.setRegsFrom0 bs).sp = s.sp := rfl
@[simp] theorem setRegsFrom0_stack (s : State) (bs : List Byte) : (s.setRegsFrom0 bs).stack = s.stack := rfl
@[simp] theorem setRegsFrom0_dt (s : State) (bs : List Byte) : (s.setRegsFrom0 bs).dt = s.dt := rfl
@[simp] theorem setRegsFrom0_st (s : State) (bs : List Byte) : (s.setRegsFrom0 bs).st = s.st := rfl
@[simp] theorem setRegsFrom0_fb (s : State) (bs : List Byte) : (s.setRegsFrom0 bs).fb = s.fb := rfl
@[simp] theorem setRegsFrom0_keys (s : State) (bs : List Byte) : (s.setRegsFrom0 bs).keys = s.keys := rfl
@[simp] theorem setRegsFrom0_fault (s : State) (bs : List Byte) : (s.setRegsFrom0 bs).fault = s.fault := rfl
@[simp] theorem setRegsFrom0_randIn (s : State) (bs : List Byte) : (s.setRegsFrom0 bs).randIn = s.randIn := rfl
@[simp] theorem setRegsFrom0_draws (s : State) (bs : List Byte) : (s.setRegsFrom0 bs).draws = s.draws := rfl

/-! setPc -/

@[simp] theorem setPc_mem (s : State) (p : Word) : (s.setPc p).mem = s.mem := rfl
@[simp] theorem setPc_v (s : State) (p : Word) : (s.setPc p).v = s.v := rfl
@[simp] theorem setPc_idx (s : State) (p : Word) : (s.setPc p).idx = s.idx := rfl
@[simp] theorem setPc_pc (s : State) (p : Word) : (s.setPc p).pc = p := rfl
@[simp] theorem setPc_sp (s : State) (p : Word) : (s.setPc p).sp = s.sp := rfl
@[simp] theorem setPc_stack (s : State) (p : Word) : (s.setPc p).stack = s.stack := rfl
@[simp] theorem setPc_dt (s : State) (p : Word) : (s.setPc p).dt = s.dt := rfl
@[simp] theorem setPc_st (s : State) (p : Word) : (s.setPc p).st = s.st := rfl
@[simp] theorem setPc_fb (s : State) (p : Word) : (s.setPc p).fb = s.fb := rfl
@[simp] theorem setPc_keys (s : State) (p : Word) : (s.setPc p).keys = s.keys := rfl
@[simp] theorem setPc_fault (s : State) (p : Word) : (s.setPc p).fault = s.fault := rfl
@[simp] theorem setPc_randIn (s : State) (p : Word) : (s.setPc p).randIn = s.randIn := rfl
@[simp] theorem setPc_draws (s : State) (p : Word) : (s.setPc p).draws = s.draws := rfl

/-! advancePc -/

@[simp] theorem advancePc_mem (s : State) : (s.advancePc).mem = s.mem := rfl
@[simp] theorem advancePc_v (s : State) : (s.advancePc).v = s.v := rfl
@[simp] theorem advancePc_idx (s : State) : (s.advancePc).idx = s.idx := rfl
@[simp] theorem advancePc_pc (s : State) : (s.advancePc).pc = s.pc + 2 := rfl
@[simp] theorem advancePc_sp (s : State) : (s.advancePc).sp = s.sp := rfl
@[simp] theorem advancePc_stack (s : State) : (s.advancePc).stack = s.stack := rfl
@[simp] theorem advancePc_dt (s : State) : (s.advancePc).dt = s.dt := rfl
@[simp] theorem advancePc_st (s : State) : (s.advancePc).st = s.st := rfl
@[simp] theorem advancePc_fb (s : State) : (s.advancePc).fb = s.fb := rfl
@[simp] theorem advancePc_keys (s : State) : (s.advancePc).keys = s.keys := rfl
@[simp] theorem advancePc_fault (s : State) : (s.advancePc).fault = s.fault := rfl
@[simp] theorem advancePc_randIn (s : State) : (s.advancePc).randIn = s.randIn := rfl
@[simp] theorem advancePc_draws (s : State) : (s.advancePc).draws = s.draws := rfl

/-! setIdx -/

@[simp] theorem setIdx_mem (s : State) (a : Word) : (s.setIdx a).mem = s.mem := rfl
@[simp] theorem setIdx_v (s : State) (a : Word) : (s.setIdx a).v = s.v := rfl
@[simp] theorem setIdx_idx (s : State) (a : Word) : (s.setIdx a).idx = a := rfl
@[simp] theorem setIdx_pc (s : State) (a : Word) : (s.setIdx a).pc = s.pc := rfl
@[simp] theorem setIdx_sp (s : State) (a : Word) : (s.setIdx a).sp = s.sp := rfl
@[simp] theorem setIdx_stack (s : State) (a : Word) : (s.setIdx a).stack = s.stack := rfl
@[simp] theorem setIdx_dt (s : State) (a : Word) : (s.setIdx a).dt = s.dt := rfl
@[simp] theorem setIdx_st (s : State) (a : Word) : (s.setIdx a).st = s.st := rfl
@[simp] theorem setIdx_fb (s : State) (a : Word) : (s.setIdx a).fb = s.fb := rfl
@[simp] theorem setIdx_keys (s : State) (a : Word) : (s.setIdx a).keys = s.keys := rfl
@[simp] theorem setIdx_fault (s : State) (a : Word) : (s.setIdx a).fault = s.fault := rfl
@[simp] theorem setIdx_randIn (s : State) (a : Word) : (s.setIdx a).randIn = s.randIn := rfl
@[simp] theorem setIdx_draws (s : State) (a : Word) : (s.setIdx a).draws = s.draws := rfl

/-! setMem -/

@[simp] theorem setMem_mem (s : State) (m : Memory) : (s.setMem m).mem = m := rfl
@[simp] theorem setMem_v (s : State) (m : Memory) : (s.setMem m).v = s.v := rfl
@[simp] theorem setMem_idx (s : State) (m : Memory) : (s.setMem m).idx = s.idx := rfl
@[simp] theorem setMem_pc (s : State) (m : Memory) : (s.setMem m).pc = s.pc := rfl
@[simp] theorem setMem_sp (s : State) (m : Memory) : (s.setMem m).sp = s.sp := rfl
@[simp] theorem setMem_stack (s : State) (m : Memory) : (s.setMem m).stack = s.stack := rfl
@[simp] theorem setMem_dt (s : State) (m : Memory) : (s.setMem m).dt = s.dt := rfl
@[simp] theorem setMem_st (s : State) (m : Memory) : (s.setMem m).st = s.st := rfl
@[simp] theorem setMem_fb (s : State) (m : Memory) : (s.setMem m).fb = s.fb := rfl
@[simp] theorem setMem_keys (s : State) (m : Memory) : (s.setMem m).keys = s.keys := rfl
@[simp] theorem setMem_fault (s : State) (m : Memory) : (s.setMem m).fault = s.fault := rfl
@[simp] theorem setMem_randIn (s : State) (m : Memory) : (s.setMem m).randIn = s.randIn := rfl
@[simp] theorem setMem_draws (s : State) (m : Memory) : (s.setMem m).draws = s.draws := rfl

/-! setFb -/

@[simp] theorem setFb_mem (s : State) (p : Pixels) : (s.setFb p).mem = s.mem := rfl
@[simp] theorem setFb_v (s : State) (p : Pixels) : (s.setFb p).v = s.v := rfl
@[simp] theorem setFb_idx (s : State) (p : Pixels) : (s.setFb p).idx = s.idx := rfl
@[simp] theorem setFb_pc (s : State) (p : Pixels) : (s.setFb p).pc = s.pc := rfl
@[simp] theorem setFb_sp (s : State) (p : Pixels) : (s.setFb p).sp = s.sp := rfl
@[simp] theorem setFb_stack (s : State) (p : Pixels) : (s.setFb p).stack = s.stack := rfl
@[simp] theorem setFb_dt (s : State) (p : Pixels) : (s.setFb p).dt = s.dt := rfl
@[simp] theorem setFb_st (s : State) (p : Pixels) : (s.setFb p).st = s.st := rfl
@[simp] theorem setFb_fb (s : State) (p : Pixels) : (s.setFb p).fb = p := rfl
@[simp] theorem setFb_keys (s : State) (p : Pixels) : (s.setFb p).keys = s.keys := rfl
@[simp] theorem setFb_fault (s : State) (p : Pixels) : (s.setFb p).fault = s.fault := rfl
@[simp] theorem setFb_randIn (s : State) (p : Pixels) : (s.setFb p).randIn = s.randIn := rfl
@[simp] theorem setFb_draws (s : State) (p : Pixels) : (s.setFb p).draws = s.draws := rfl

/-! setDt -/

@[simp] theorem setDt_mem (s : State) (b : Byte) : (s.setDt b).mem = s.mem := rfl
@[simp] theorem setDt_v (s : State) (b : Byte) : (s.setDt b).v = s.v := rfl
@[simp] theorem setDt_idx (s : State) (b : Byte) : (s.setDt b).idx = s.idx := rfl
@[simp] theorem setDt_pc (s : State) (b : Byte) : (s.setDt b).pc = s.pc := rfl
@[simp] theorem setDt_sp (s : State) (b : Byte) : (s.setDt b).sp = s.sp := rfl
@[simp] theorem setDt_stack (s : State) (b : Byte) : (s.setDt b).stack = s.stack := rfl
@[simp] theorem setDt_dt (s : State) (b : Byte) : (s.setDt b).dt = b := rfl
@[simp] theorem setDt_st (s : State) (b : Byte) : (s.setDt b).st = s.st := rfl
@[simp] theorem setDt_fb (s : State) (b : Byte) : (s.setDt b).fb = s.fb := rfl
@[simp] theorem setDt_keys (s : State) (b : Byte) : (s.setDt b).keys = s.keys := rfl
@[simp] theorem setDt_fault (s : State) (b : Byte) : (s.setDt b).fault = s.fault := rfl
@[simp] theorem setDt_randIn (s : State) (b : Byte) : (s.setDt b).randIn = s.randIn := rfl
@[simp] theorem setDt_draws (s : State) (b : Byte) : (s.setDt b).draws = s.draws := rfl

/-! setSt -/

@[simp] theorem setSt_mem (s : State) (b : Byte) : (s.setSt b).mem = s.mem := rfl
@[simp] theorem setSt_v (s : State) (b : Byte) : (s.setSt b).v = s.v := rfl
@[simp] theorem setSt_idx (s : State) (b : Byte) : (s.setSt b).idx = s.idx := rfl
@[simp] theorem setSt_pc (s : State) (b : Byte) : (s.setSt b).pc = s.pc := rfl
@[simp] theorem setSt_sp (s : State) (b : Byte) : (s.setSt b).sp = s.sp := rfl
@[simp] theorem setSt_stack (s : State) (b : Byte) : (s.setSt b).stack = s.stack := rfl
@[simp] theorem setSt_dt (s : State) (b : Byte) : (s.setSt b).dt = s.dt := rfl
@[simp] theorem setSt_st (s : State) (b : Byte) : (s.setSt b).st = b := rfl
@[simp] theorem setSt_fb (s : State) (b : Byte) : (s.setSt b).fb = s.fb := rfl
@[simp] theorem setSt_keys (s : State) (b : Byte) : (s.setSt b).keys = s.keys := rfl
@[simp] theorem setSt_fault (s : State) (b : Byte) : (s.setSt b).fault = s.fault := rfl
@[simp] theorem setSt_randIn (s : State) (b : Byte) : (s.setSt b).randIn = s.randIn := rfl
@[simp] theorem setSt_draws (s : State) (b : Byte) : (s.setSt b).draws = s.draws := rfl

/-! setKeys -/

@[simp] theorem setKeys_mem (s : State) (k : BitVec 16) : (s.setKeys k).mem = s.mem := rfl
@[simp] theorem setKeys_v (s : State) (k : BitVec 16) : (s.setKeys k).v = s.v := rfl
@[simp] theorem setKeys_idx (s : State) (k : BitVec 16) : (s.setKeys k).idx = s.idx := rfl
@[simp] theorem setKeys_pc (s : State) (k : BitVec 16) : (s.setKeys k).pc = s.pc := rfl
@[simp] theorem setKeys_sp (s : State) (k : BitVec 16) : (s.setKeys k).sp = s.sp := rfl
@[simp] theorem setKeys_stack (s : State) (k : BitVec 16) : (s.setKeys k).stack = s.stack := rfl
@[simp] theorem setKeys_dt (s : State) (k : BitVec 16) : (s.setKeys k).dt = s.dt := rfl
@[simp] theorem setKeys_st (s : State) (k : BitVec 16) : (s.setKeys k).st = s.st := rfl
@[simp] theorem setKeys_fb (s : State) (k : BitVec 16) : (s.setKeys k).fb = s.fb := rfl
@[simp] theorem setKeys_keys (s : State) (k : BitVec 16) : (s.setKeys k).keys = k := rfl
@[simp] theorem setKeys_fault (s : State) (k : BitVec 16) : (s.setKeys k).fault = s.fault := rfl
@[simp] theorem setKeys_randIn (s : State) (k : BitVec 16) : (s.setKeys k).randIn = s.randIn := rfl
@[simp] theorem setKeys_draws (s : State) (k : BitVec 16) : (s.setKeys k).draws = s.draws := rfl

/-! takeRand -/

@[simp] theorem takeRand_mem (s : State) : (s.takeRand).mem = s.mem := rfl
@[simp] theorem takeRand_v (s : State) : (s.takeRand).v = s.v := rfl
@[simp] theorem takeRand_idx (s : State) : (s.takeRand).idx = s.idx := rfl
@[simp] theorem takeRand_pc (s : State) : (s.takeRand).pc = s.pc := rfl
@[simp] theorem takeRand_sp (s : State) : (s.takeRand).sp = s.sp := rfl
@[simp] theorem takeRand_stack (s : State) : (s.takeRand).stack = s.stack := rfl
@[simp] theorem takeRand_dt (s : State) : (s.takeRand).dt = s.dt := rfl
@[simp] theorem takeRand_st (s : State) : (s.takeRand).st = s.st := rfl
@[simp] theorem takeRand_fb (s : State) : (s.takeRand).fb = s.fb := rfl
@[simp] theorem takeRand_keys (s : State) : (s.takeRand).keys = s.keys := rfl
@[simp] theorem takeRand_fault (s : State) : (s.takeRand).fault = s.fault := rfl
@[simp] theorem takeRand_randIn (s : State) : (s.takeRand).randIn = none := rfl
@[simp] theorem takeRand_draws (s : State) : (s.takeRand).draws = s.draws + 1 := rfl

/-! setRandIn -/

@[simp] theorem setRandIn_mem (s : State) (r : Option Byte) : (s.setRandIn r).mem = s.mem := rfl
@[simp] theorem setRandIn_v (s : State) (r : Option Byte) : (s.setRandIn r).v = s.v := rfl
@[simp] theorem setRandIn_idx (s : State) (r : Option Byte) : (s.setRandIn r).idx = s.idx := rfl
@[simp] theorem setRandIn_pc (s : State) (r : Option Byte) : (s.setRandIn r).pc = s.pc := rfl
@[simp] theorem setRandIn_sp (s : State) (r : Option Byte) : (s.setRandIn r).sp = s.sp := rfl
@[simp] theorem setRandIn_stack (s : State) (r : Option Byte) : (s.setRandIn r).stack = s.stack := rfl
@[simp] theorem setRandIn_dt (s : State) (r : Option Byte) : (s.setRandIn r).dt = s.dt := rfl
@[simp] theorem setRandIn_st (s : State) (r : Option Byte) : (s.setRandIn r).st = s.st := rfl
@[simp] theorem setRandIn_fb (s : State) (r : Option Byte) : (s.setRandIn r).fb = s.fb := rfl
@[simp] theorem setRandIn_keys (s : State) (r : Option Byte) : (s.setRandIn r).keys = s.keys := rfl
@[simp] theorem setRandIn_fault (s : State) (r : Option Byte) : (s.setRandIn r).fault = s.fault := rfl
@[simp] theorem setRandIn_randIn (s : State) (r : Option Byte) : (s.setRandIn r).randIn = r := rfl
@[simp] theorem setRandIn_draws (s : State) (r : Option Byte) : (s.setRandIn r).draws = s.draws := rfl

/-! enterFault -/

@[simp] theorem enterFault_mem (s : State) (op : Word) (r : Raise) : (s.enterFault op r).mem = s.mem := rfl
@[simp] theorem enterFault_v (s : State) (op : Word) (r : Raise) : (s.enterFault op r).v = s.v := rfl
@[simp] theorem enterFault_idx (s : State) (op : Word) (r : Raise) : (s.enterFault op r).idx = s.idx := rfl
@[simp] theorem enterFault_pc (s : State) (op : Word) (r : Raise) : (s.enterFault op r).pc = s.pc := rfl
@[simp] theorem enterFault_sp (s : State) (op : Word) (r : Raise) : (s.enterFault op r).sp = s.sp := rfl
@[simp] theorem enterFault_stack (s : State) (op : Word) (r : Raise) : (s.enterFault op r).stack = s.stack := rfl
@[simp] theorem enterFault_dt (s : State) (op : Word) (r : Raise) : (s.enterFault op r).dt = s.dt := rfl
@[simp] theorem enterFault_st (s : State) (op : Word) (r : Raise) : (s.enterFault op r).st = s.st := rfl
@[simp] theorem enterFault_fb (s : State) (op : Word) (r : Raise) : (s.enterFault op r).fb = s.fb := rfl
@[simp] theorem enterFault_keys (s : State) (op : Word) (r : Raise) : (s.enterFault op r).keys = s.keys := rfl
@[simp] theorem enterFault_fault (s : State) (op : Word) (r : Raise) : (s.enterFault op r).fault = 
    { halted := true, code := r.cause.code, pc := s.pc, opcode := op, addr := BitVec.ofNat 17 r.addr } := rfl
@[simp] theorem enterFault_randIn (s : State) (op : Word) (r : Raise) : (s.enterFault op r).randIn = s.randIn := rfl
@[simp] theorem enterFault_draws (s : State) (op : Word) (r : Raise) : (s.enterFault op r).draws = s.draws := rfl

/-! setRegAndFlag -/

@[simp] theorem setRegAndFlag_mem (s : State) (x : Reg) (b f : Byte) : (s.setRegAndFlag x b f).mem = s.mem := rfl
@[simp] theorem setRegAndFlag_v (s : State) (x : Reg) (b f : Byte) : (s.setRegAndFlag x b f).v = (s.v.set x b).set (15 : Reg) f := rfl
@[simp] theorem setRegAndFlag_idx (s : State) (x : Reg) (b f : Byte) : (s.setRegAndFlag x b f).idx = s.idx := rfl
@[simp] theorem setRegAndFlag_pc (s : State) (x : Reg) (b f : Byte) : (s.setRegAndFlag x b f).pc = s.pc := rfl
@[simp] theorem setRegAndFlag_sp (s : State) (x : Reg) (b f : Byte) : (s.setRegAndFlag x b f).sp = s.sp := rfl
@[simp] theorem setRegAndFlag_stack (s : State) (x : Reg) (b f : Byte) : (s.setRegAndFlag x b f).stack = s.stack := rfl
@[simp] theorem setRegAndFlag_dt (s : State) (x : Reg) (b f : Byte) : (s.setRegAndFlag x b f).dt = s.dt := rfl
@[simp] theorem setRegAndFlag_st (s : State) (x : Reg) (b f : Byte) : (s.setRegAndFlag x b f).st = s.st := rfl
@[simp] theorem setRegAndFlag_fb (s : State) (x : Reg) (b f : Byte) : (s.setRegAndFlag x b f).fb = s.fb := rfl
@[simp] theorem setRegAndFlag_keys (s : State) (x : Reg) (b f : Byte) : (s.setRegAndFlag x b f).keys = s.keys := rfl
@[simp] theorem setRegAndFlag_fault (s : State) (x : Reg) (b f : Byte) : (s.setRegAndFlag x b f).fault = s.fault := rfl
@[simp] theorem setRegAndFlag_randIn (s : State) (x : Reg) (b f : Byte) : (s.setRegAndFlag x b f).randIn = s.randIn := rfl
@[simp] theorem setRegAndFlag_draws (s : State) (x : Reg) (b f : Byte) : (s.setRegAndFlag x b f).draws = s.draws := rfl

/-! tickTimers -/

@[simp] theorem tickTimers_mem (s : State) : (s.tickTimers).mem = s.mem := rfl
@[simp] theorem tickTimers_v (s : State) : (s.tickTimers).v = s.v := rfl
@[simp] theorem tickTimers_idx (s : State) : (s.tickTimers).idx = s.idx := rfl
@[simp] theorem tickTimers_pc (s : State) : (s.tickTimers).pc = s.pc := rfl
@[simp] theorem tickTimers_sp (s : State) : (s.tickTimers).sp = s.sp := rfl
@[simp] theorem tickTimers_stack (s : State) : (s.tickTimers).stack = s.stack := rfl
@[simp] theorem tickTimers_dt (s : State) : (s.tickTimers).dt = tickTimer s.dt := rfl
@[simp] theorem tickTimers_st (s : State) : (s.tickTimers).st = tickTimer s.st := rfl
@[simp] theorem tickTimers_fb (s : State) : (s.tickTimers).fb = s.fb := rfl
@[simp] theorem tickTimers_keys (s : State) : (s.tickTimers).keys = s.keys := rfl
@[simp] theorem tickTimers_fault (s : State) : (s.tickTimers).fault = s.fault := rfl
@[simp] theorem tickTimers_randIn (s : State) : (s.tickTimers).randIn = s.randIn := rfl
@[simp] theorem tickTimers_draws (s : State) : (s.tickTimers).draws = s.draws := rfl

/-! skipIf -/

@[simp] theorem skipIf_pc (s : State) (c : Bool) : (s.skipIf c).pc = if c then s.pc + 2 else s.pc := rfl

@[simp] theorem skipIf_mem (s : State) (c : Bool) : (s.skipIf c).mem = s.mem := rfl
@[simp] theorem skipIf_v (s : State) (c : Bool) : (s.skipIf c).v = s.v := rfl
@[simp] theorem skipIf_idx (s : State) (c : Bool) : (s.skipIf c).idx = s.idx := rfl
@[simp] theorem skipIf_sp (s : State) (c : Bool) : (s.skipIf c).sp = s.sp := rfl
@[simp] theorem skipIf_stack (s : State) (c : Bool) : (s.skipIf c).stack = s.stack := rfl
@[simp] theorem skipIf_dt (s : State) (c : Bool) : (s.skipIf c).dt = s.dt := rfl
@[simp] theorem skipIf_st (s : State) (c : Bool) : (s.skipIf c).st = s.st := rfl
@[simp] theorem skipIf_fb (s : State) (c : Bool) : (s.skipIf c).fb = s.fb := rfl
@[simp] theorem skipIf_keys (s : State) (c : Bool) : (s.skipIf c).keys = s.keys := rfl
@[simp] theorem skipIf_fault (s : State) (c : Bool) : (s.skipIf c).fault = s.fault := rfl
@[simp] theorem skipIf_randIn (s : State) (c : Bool) : (s.skipIf c).randIn = s.randIn := rfl
@[simp] theorem skipIf_draws (s : State) (c : Bool) : (s.skipIf c).draws = s.draws := rfl

/-! V registers. -/

@[simp] theorem reg_setReg (s : State) (x y : Reg) (b : Byte) :
    (s.setReg x b).reg y = if x = y then b else s.reg y := by
  simp only [State.reg, State.setReg, Vector.get_eq_getElem, Vector.getElem_set, Fin.ext_iff]

theorem reg_setReg_same (s : State) (x : Reg) (b : Byte) : (s.setReg x b).reg x = b := by simp

theorem reg_setReg_other (s : State) {x y : Reg} (b : Byte) (h : x ≠ y) : (s.setReg x b).reg y = s.reg y := by
  simp [h]

/-- The flag is the last write to VF (R102). -/
@[simp] theorem reg_setRegAndFlag (s : State) (x y : Reg) (b f : Byte) :
    (s.setRegAndFlag x b f).reg y = if 15 = y then f else if x = y then b else s.reg y := by
  simp [State.setRegAndFlag]

/-- Reading a register looks at V alone. -/
theorem reg_congr {s t : State} (h : t.v = s.v) (r : Reg) : t.reg r = s.reg r := by simp [State.reg, h]

@[simp] theorem reg_setPc (s : State) (p : Word) (q : Reg) : (s.setPc p).reg q = s.reg q := rfl
@[simp] theorem reg_advancePc (s : State) (q : Reg) : (s.advancePc).reg q = s.reg q := rfl
@[simp] theorem reg_setIdx (s : State) (a : Word) (q : Reg) : (s.setIdx a).reg q = s.reg q := rfl
@[simp] theorem reg_setMem (s : State) (m : Memory) (q : Reg) : (s.setMem m).reg q = s.reg q := rfl
@[simp] theorem reg_setFb (s : State) (p : Pixels) (q : Reg) : (s.setFb p).reg q = s.reg q := rfl
@[simp] theorem reg_setDt (s : State) (b : Byte) (q : Reg) : (s.setDt b).reg q = s.reg q := rfl
@[simp] theorem reg_setSt (s : State) (b : Byte) (q : Reg) : (s.setSt b).reg q = s.reg q := rfl
@[simp] theorem reg_setKeys (s : State) (k : BitVec 16) (q : Reg) : (s.setKeys k).reg q = s.reg q := rfl
@[simp] theorem reg_takeRand (s : State) (q : Reg) : (s.takeRand).reg q = s.reg q := rfl
@[simp] theorem reg_setRandIn (s : State) (r : Option Byte) (q : Reg) : (s.setRandIn r).reg q = s.reg q := rfl
@[simp] theorem reg_enterFault (s : State) (op : Word) (r : Raise) (q : Reg) : (s.enterFault op r).reg q = s.reg q := rfl
@[simp] theorem reg_tickTimers (s : State) (q : Reg) : (s.tickTimers).reg q = s.reg q := rfl
@[simp] theorem reg_skipIf (s : State) (c : Bool) (r : Reg) : (s.skipIf c).reg r = s.reg r := rfl

theorem putRegs_get (v : Vector Byte 16) (start : Nat) (bs : List Byte) (r : Reg) :
    (putRegs v start bs).get r =
      if h : start ≤ r.val ∧ r.val < start + bs.length then bs[r.val - start]'(by omega) else v.get r := by
  induction bs generalizing v start with
  | nil => simp [putRegs]
  | cons b bs ih =>
    rw [putRegs, ih]
    by_cases hlt : start + 1 ≤ r.val ∧ r.val < start + 1 + bs.length
    · have : start ≤ r.val ∧ r.val < start + (b :: bs).length := by simp; omega
      have e : r.val - start = (r.val - (start + 1)) + 1 := by omega
      rw [dif_pos hlt, dif_pos this]
      simp only [e, List.getElem_cons_succ]
    · by_cases heq : r.val = start
      · subst heq
        simp [Vector.get_eq_getElem]
      · have : ¬(start ≤ r.val ∧ r.val < start + (b :: bs).length) := by simp; omega
        simp only [hlt, this, dite_false, Vector.get_eq_getElem]
        exact Vector.getElem_setIfInBounds_ne _ (by omega)

/-- Loading a list of bytes into V0, V1, …: register r holds byte r, the others are as they were (R506). -/
theorem reg_setRegsFrom0 (s : State) (bs : List Byte) (r : Reg) :
    (s.setRegsFrom0 bs).reg r = if h : r.val < bs.length then bs[r.val] else s.reg r := by
  simp only [State.reg, setRegsFrom0_v, putRegs_get, Nat.zero_le, true_and, Nat.zero_add, Nat.sub_zero]

theorem length_regsTo (s : State) (x : Reg) : (s.regsTo x).length = x.val + 1 := by
  simp only [State.regsTo, List.length_take, Vector.length_toList]; omega

/-- The k-th byte of V0 to Vx is V[k] (R505). -/
theorem getElem_regsTo (s : State) (x : Reg) (k : Nat) (h : k < (s.regsTo x).length) :
    (s.regsTo x)[k] = s.reg ⟨k, by have := length_regsTo s x; omega⟩ := by
  simp [State.regsTo, State.reg, Vector.get_eq_getElem]

end Sys2Proof.Machine
end

