-- ==== Sys2Proof/Laws/Display.lean ====
section
/-! SUPPORT. What the drawing operations do to each pixel and to the collision accumulator (spec/43_display.md R550, R560). -/

namespace Sys2Proof.Machine

/-- Flipping pixel k inverts it and leaves the others alone. -/
theorem pixelAt_flipPixel (p : Pixels) {k : Nat} (hk : k < 2048) (j : Nat) :
    pixelAt (flipPixel p k) j = if j = k then !pixelAt p j else pixelAt p j := by
  have hk' : k / 64 < 32 := by omega
  unfold pixelAt flipPixel
  by_cases hj : j / 64 < 32
  · simp only [hj, hk', dite_true, Vector.getElem_set]
    by_cases hr : k / 64 = j / 64
    · simp only [hr, if_true, BitVec.getLsbD_xor, BitVec.getLsbD_twoPow]
      by_cases h : j = k
      · subst h; simp [Nat.mod_lt]
      · have : ¬ k % 64 = j % 64 := by omega
        simp [h, this]
    · have : j ≠ k := by rintro rfl; exact hr rfl
      simp [hr, this]
  · have : j ≠ k := by omega
    simp [hj, this]

theorem pixelAt_blank (k : Nat) : pixelAt blankScreen k = false := by
  simp [pixelAt, blankScreen]

/-- Framebuffers with the same pixels are the same. -/
theorem pixels_ext {p q : Pixels} (h : ∀ k < 2048, pixelAt p k = pixelAt q k) : p = q := by
  ext r hr c hc
  have := h (r * 64 + c) (by omega)
  have e1 : (r * 64 + c) / 64 = r := by omega
  have e2 : (r * 64 + c) % 64 = c := by omega
  simpa [pixelAt, e1, e2, hr, hc, BitVec.getLsbD_eq_getElem] using this

/-- Toggling pixel k inverts it and leaves the others alone. -/
theorem togglePixel_fb (c : Canvas) {k : Nat} (hk : k < 2048) (j : Nat) :
    pixelAt (c.togglePixel k).fb j = if j = k then !pixelAt c.fb j else pixelAt c.fb j :=
  pixelAt_flipPixel c.fb hk j

@[simp] theorem togglePixel_coll (c : Canvas) (k : Nat) : (c.togglePixel k).coll = (c.coll || pixelAt c.fb k) := rfl

/-- Pixel indices are in range and name their coordinates (R550). -/
theorem pixelIndex_lt {px py : Nat} (hx : px < 64) (hy : py < 32) : pixelIndex px py < 2048 := by
  unfold pixelIndex; omega

theorem pixelIndex_inj {px py px' py' : Nat} (hx : px < 64) (hx' : px' < 64) :
    pixelIndex px py = pixelIndex px' py' ↔ px = px' ∧ py = py' := by
  unfold pixelIndex; omega

/-- Drawing one sprite bit: its pixel is inverted if the bit is set, and nothing else changes. -/
theorem drawBit_fb (cx row : Nat) (bits : Byte) (c : Canvas) (col px py : Nat) (hx : px < 64) :
    pixelAt (c.drawBit cx row bits col).fb (pixelIndex px py) =
      (pixelAt c.fb (pixelIndex px py) ^^
        (bits.getLsbD (7 - col) && decide (px = (cx + col) % 64 ∧ py = row % 32))) := by
  unfold Canvas.drawBit
  by_cases hb : bits.getLsbD (7 - col)
  · rw [if_pos hb, togglePixel_fb _ (pixelIndex_lt (by omega) (by omega)), hb]
    simp only [pixelIndex_inj hx (Nat.mod_lt (cx + col) (by decide : 64 > 0)), Bool.true_and]
    by_cases h : px = (cx + col) % 64 ∧ py = row % 32 <;> simp [h]
  · simp [hb]

theorem drawBit_coll (cx row : Nat) (bits : Byte) (c : Canvas) (col : Nat) :
    (c.drawBit cx row bits col).coll =
      (c.coll || (bits.getLsbD (7 - col) && pixelAt c.fb (pixelIndex ((cx + col) % 64) (row % 32)))) := by
  unfold Canvas.drawBit
  by_cases hb : bits.getLsbD (7 - col) <;> simp [hb]

/-- A set bit of the byte falls, wrapped, on pixel (px, py) when it is drawn as row `row` from column `cx`, columns up to `n`. -/
def ByteCovers (cx row : Nat) (bits : Byte) (n px py : Nat) : Prop :=
  ∃ k, k < n ∧ bits.getLsbD (7 - k) = true ∧ px = (cx + k) % 64 ∧ py = row % 32

theorem byteCovers_succ (cx row : Nat) (bits : Byte) (n px py : Nat) :
    ByteCovers cx row bits (n + 1) px py ↔ ByteCovers cx row bits n px py ∨
      (bits.getLsbD (7 - n) = true ∧ px = (cx + n) % 64 ∧ py = row % 32) := by
  constructor
  · rintro ⟨k, hk, h⟩
    by_cases e : k = n
    · subst e; exact .inr h
    · exact .inl ⟨k, by omega, h⟩
  · rintro (⟨k, hk, h⟩ | h)
    · exact ⟨k, by omega, h⟩
    · exact ⟨n, by omega, h⟩

/-- The first `n` columns of a sprite row, n ≤ 8: each pixel covered is inverted, the others are as they were, and the
accumulator gains exactly the covered pixels that were set. No pixel is covered twice. -/
theorem drawBits_spec (cx row : Nat) (bits : Byte) (n : Nat) (hn : n ≤ 8) (c : Canvas) :
    (∀ px < 64, ∀ py < 32,
      (pixelAt ((List.range n).foldl (Canvas.drawBit cx row bits) c).fb (pixelIndex px py) = true ↔
        ¬ (pixelAt c.fb (pixelIndex px py) = true ↔ ByteCovers cx row bits n px py))) ∧
    (((List.range n).foldl (Canvas.drawBit cx row bits) c).coll = true ↔
      (c.coll = true ∨ ∃ px < 64, ∃ py < 32, ByteCovers cx row bits n px py ∧
        pixelAt c.fb (pixelIndex px py) = true)) := by
  induction n with
  | zero => simp [ByteCovers]
  | succ n ih =>
    obtain ⟨h1, h2⟩ := ih (by omega)
    rw [List.range_succ, List.foldl_append]
    simp only [List.foldl_cons, List.foldl_nil]
    have hmx : (cx + n) % 64 < 64 := Nat.mod_lt _ (by decide)
    have hmy : row % 32 < 32 := Nat.mod_lt _ (by decide)
    have fresh : ¬ ByteCovers cx row bits n ((cx + n) % 64) (row % 32) := by
      rintro ⟨k, hk, -, h, -⟩; omega
    constructor
    · intro px hx py hy
      rw [drawBit_fb _ _ _ _ _ _ _ hx, byteCovers_succ]
      have old := h1 px hx py hy
      by_cases hA : bits.getLsbD (7 - n) = true ∧ px = (cx + n) % 64 ∧ py = row % 32
      · obtain ⟨hb, rfl, rfl⟩ := hA
        simp only [fresh, iff_false, not_not] at old
        have old' := Bool.eq_iff_iff.2 old
        simp [fresh, hb, old']
      · have hC : (bits.getLsbD (7 - n) && decide (px = (cx + n) % 64 ∧ py = row % 32)) = false := by
          cases hb : bits.getLsbD (7 - n) <;> simp_all
        rw [hC, Bool.xor_false, old]
        simp only [hA, or_false]
    · rw [drawBit_coll]
      have old := h1 _ hmx _ hmy
      simp only [fresh, iff_false, not_not] at old
      simp only [Bool.or_eq_true, Bool.and_eq_true, h2, old]
      constructor
      · rintro ((h | ⟨px, hx, py, hy, hc, h⟩) | ⟨hb, h⟩)
        · exact .inl h
        · exact .inr ⟨px, hx, py, hy, (byteCovers_succ ..).2 (.inl hc), h⟩
        · exact .inr ⟨_, hmx, _, hmy, (byteCovers_succ ..).2 (.inr ⟨hb, rfl, rfl⟩), h⟩
      · rintro (h | ⟨px, hx, py, hy, hc, h⟩)
        · exact .inl (.inl h)
        · rcases (byteCovers_succ ..).1 hc with hc | ⟨hb, rfl, rfl⟩
          · exact .inl (.inr ⟨px, hx, py, hy, hc, h⟩)
          · exact .inr ⟨hb, h⟩

/-- A set bit of the sprite falls, wrapped, on pixel (px, py) when it is drawn from column `cx` and row `row`. -/
def SpriteListCovers (cx row : Nat) (sprite : List Byte) (px py : Nat) : Prop :=
  ∃ r, ∃ h : r < sprite.length, ByteCovers cx (row + r) sprite[r] 8 px py

theorem spriteListCovers_cons (cx row : Nat) (b : Byte) (rest : List Byte) (px py : Nat) :
    SpriteListCovers cx row (b :: rest) px py ↔
      ByteCovers cx row b 8 px py ∨ SpriteListCovers cx (row + 1) rest px py := by
  constructor
  · rintro ⟨r, h, hc⟩
    cases r with
    | zero => exact .inl hc
    | succ r =>
      refine .inr ⟨r, by simpa using h, ?_⟩
      simpa [Nat.add_assoc, Nat.add_comm 1] using hc
  · rintro (hc | ⟨r, h, hc⟩)
    · exact ⟨0, by simp, hc⟩
    · refine ⟨r + 1, by simpa using h, ?_⟩
      simpa [Nat.add_assoc, Nat.add_comm 1] using hc

/-- Everything drawing a sprite of at most 32 rows does (R560): each pixel covered is inverted, the others are as they were,
and the accumulator gains exactly the covered pixels that were set. -/
theorem drawRows_spec (cx row : Nat) (sprite : List Byte) (hl : sprite.length ≤ 32) (c : Canvas) :
    (∀ px < 64, ∀ py < 32,
      (pixelAt (Canvas.drawRows cx row sprite c).fb (pixelIndex px py) = true ↔
        ¬ (pixelAt c.fb (pixelIndex px py) = true ↔ SpriteListCovers cx row sprite px py))) ∧
    ((Canvas.drawRows cx row sprite c).coll = true ↔
      (c.coll = true ∨ ∃ px < 64, ∃ py < 32, SpriteListCovers cx row sprite px py ∧
        pixelAt c.fb (pixelIndex px py) = true)) := by
  induction sprite generalizing row c with
  | nil => simp [Canvas.drawRows, SpriteListCovers]
  | cons b rest ih =>
    simp only [List.length_cons] at hl
    obtain ⟨h1, h2⟩ := ih (row + 1) (by omega) (Canvas.drawRow cx row b c)
    obtain ⟨g1, g2⟩ := drawBits_spec cx row b 8 (le_refl _) c
    have apart : ∀ px py, ByteCovers cx row b 8 px py → ¬ SpriteListCovers cx (row + 1) rest px py := by
      rintro px py ⟨k, -, -, -, h⟩ ⟨r, hr, k', -, -, -, h'⟩; omega
    rw [Canvas.drawRows]
    constructor
    · intro px hx py hy
      rw [h1 px hx py hy, Canvas.drawRow, g1 px hx py hy, spriteListCovers_cons]
      have := apart px py
      by_cases hA : ByteCovers cx row b 8 px py <;> by_cases hB : SpriteListCovers cx (row + 1) rest px py <;>
        simp_all
    · rw [h2, Canvas.drawRow, g2]
      constructor
      · rintro ((h | ⟨px, hx, py, hy, hc, h⟩) | ⟨px, hx, py, hy, hc, h⟩)
        · exact .inl h
        · exact .inr ⟨px, hx, py, hy, (spriteListCovers_cons ..).2 (.inl hc), h⟩
        · refine .inr ⟨px, hx, py, hy, (spriteListCovers_cons ..).2 (.inr hc), ?_⟩
          rw [g1 px hx py hy] at h
          have hn : ¬ ByteCovers cx row b 8 px py := fun hb => apart px py hb hc
          simpa only [hn, iff_false, not_not] using h
      · rintro (h | ⟨px, hx, py, hy, hc, h⟩)
        · exact .inl (.inl h)
        · rcases (spriteListCovers_cons ..).1 hc with hb | hc
          · exact .inl (.inr ⟨px, hx, py, hy, hb, h⟩)
          · refine .inr ⟨px, hx, py, hy, hc, ?_⟩
            rw [g1 px hx py hy]
            have hn : ¬ ByteCovers cx row b 8 px py := fun hb => apart px py hb hc
            simpa only [hn, iff_false, not_not] using h

end Sys2Proof.Machine
end

