-- ==== Sys2Proof/Laws/Memory.lean ====
section
/-! SUPPORT. The laws of memory: read after write, the canonical form, and what the multi-byte accesses do (spec/20_memory.md). -/

namespace Sys2Proof.Machine

theorem read_drop (m : Memory) (a b : Nat) :
    (m.drop a).read b = if a = b then Memory.unlisted b else m.read b := by
  induction m with
  | nil => simp [Memory.drop, Memory.read]
  | cons c rest ih =>
    obtain ⟨k, v⟩ := c
    by_cases h : a = k <;> by_cases h2 : a = b <;> by_cases h3 : k = b <;>
      simp_all [Memory.drop, Memory.read]

theorem read_put (m : Memory) (a b : Nat) (v : Byte) :
    (m.put a v).read b = if a = b then v else m.read b := by
  induction m with
  | nil => simp [Memory.put, Memory.read]
  | cons c rest ih =>
    obtain ⟨k, w⟩ := c
    by_cases h1 : a < k
    · simp [Memory.put, Memory.read, h1]
    · by_cases h : a = k
      · by_cases h2 : a = b <;> simp_all [Memory.put, Memory.read]
      · by_cases h2 : k = b
        · subst h2
          simp [Memory.put, Memory.read, h1, h]
        · simp [Memory.put, Memory.read, h1, h, h2, ih]

/-- A read of a byte sees the last write to it, and no other write (R240). -/
theorem read_write (m : Memory) (a b : Nat) (v : Byte) :
    (m.write a v).read b = if a = b then v else m.read b := by
  unfold Memory.write
  split
  · rename_i h
    rw [read_drop]
    split <;> simp_all
  · rw [read_put]

theorem read_write_same (m : Memory) (a : Nat) (v : Byte) : (m.write a v).read a = v := by simp [read_write]

theorem read_write_other (m : Memory) {a b : Nat} (v : Byte) (h : a ≠ b) : (m.write a v).read b = m.read b := by
  simp [read_write, h]

/-! The canonical form. -/

theorem wfFrom_cons (low k : Nat) (b : Byte) (rest : Memory) :
    Memory.wfFrom low ((k, b) :: rest) = true ↔
      low ≤ k ∧ k < 4096 ∧ b ≠ Memory.unlisted k ∧ Memory.wfFrom (k + 1) rest = true := by
  simp [Memory.wfFrom, and_assoc]

theorem wfFrom_mono {low low' : Nat} {m : Memory} (h : low' ≤ low) (hm : Memory.wfFrom low m = true) :
    Memory.wfFrom low' m = true := by
  cases m with
  | nil => rfl
  | cons c rest =>
    obtain ⟨k, b⟩ := c
    rw [wfFrom_cons] at hm ⊢
    exact ⟨by omega, hm.2⟩

theorem wfFrom_drop {low : Nat} {m : Memory} (a : Nat) (hm : Memory.wfFrom low m = true) :
    Memory.wfFrom low (m.drop a) = true := by
  induction m generalizing low with
  | nil => rfl
  | cons c rest ih =>
    obtain ⟨k, b⟩ := c
    rw [wfFrom_cons] at hm
    unfold Memory.drop
    split
    · exact wfFrom_mono (by omega) (ih hm.2.2.2)
    · rw [wfFrom_cons]
      exact ⟨hm.1, hm.2.1, hm.2.2.1, ih hm.2.2.2⟩

theorem wfFrom_put {low : Nat} {m : Memory} {a : Nat} {v : Byte} (hl : low ≤ a) (ha : a < 4096)
    (hv : v ≠ Memory.unlisted a) (hm : Memory.wfFrom low m = true) : Memory.wfFrom low (m.put a v) = true := by
  induction m generalizing low with
  | nil => simp [Memory.put, Memory.wfFrom, hl, ha, hv]
  | cons c rest ih =>
    obtain ⟨k, b⟩ := c
    rw [wfFrom_cons] at hm
    obtain ⟨h1, h2, h3, h4⟩ := hm
    unfold Memory.put
    split
    · rw [wfFrom_cons, wfFrom_cons]
      exact ⟨hl, ha, hv, by omega, h2, h3, h4⟩
    · split
      · subst_vars
        rw [wfFrom_cons]
        exact ⟨hl, ha, hv, h4⟩
      · rw [wfFrom_cons]
        exact ⟨h1, h2, h3, ih (by omega) h4⟩

/-- A write inside memory keeps the canonical form. -/
theorem wf_write {m : Memory} {a : Nat} (v : Byte) (ha : a < 4096) (hm : m.wf = true) : (m.write a v).wf = true := by
  unfold Memory.write
  split
  · exact wfFrom_drop a hm
  · exact wfFrom_put (Nat.zero_le a) ha (by assumption) hm

theorem read_below_of_wfFrom {low : Nat} {m : Memory} (hm : Memory.wfFrom low m = true) {a : Nat} (ha : a < low) :
    m.read a = Memory.unlisted a := by
  induction m generalizing low with
  | nil => rfl
  | cons c rest ih =>
    obtain ⟨k, b⟩ := c
    rw [wfFrom_cons] at hm
    have hk : k ≠ a := by omega
    simp [Memory.read, hk, ih hm.2.2.2 (by omega)]

/-- Canonical memories that read alike at or above `low` are the same list. -/
theorem eq_of_wfFrom {low : Nat} {m m' : Memory} (hm : Memory.wfFrom low m = true) (hm' : Memory.wfFrom low m' = true)
    (h : ∀ a, m.read a = m'.read a) : m = m' := by
  induction m generalizing low m' with
  | nil =>
    cases m' with
    | nil => rfl
    | cons c rest =>
      obtain ⟨k, b⟩ := c
      rw [wfFrom_cons] at hm'
      have := h k
      simp [Memory.read] at this
      exact absurd this.symm hm'.2.2.1
  | cons c rest ih =>
    obtain ⟨k, b⟩ := c
    have hw := hm
    rw [wfFrom_cons] at hm
    cases m' with
    | nil =>
      have := h k
      simp [Memory.read] at this
      exact absurd this hm.2.2.1
    | cons c' rest' =>
      obtain ⟨k', b'⟩ := c'
      have hw' := hm'
      rw [wfFrom_cons] at hm'
      rcases Nat.lt_trichotomy k k' with hlt | heq | hgt
      · have := h k
        have hk : k' ≠ k := by omega
        simp [Memory.read, hk, read_below_of_wfFrom hm'.2.2.2 (show k < k' + 1 by omega)] at this
        exact absurd this hm.2.2.1
      · subst heq
        have hb : b = b' := by simpa [Memory.read] using h k
        subst hb
        have : rest = rest' := by
          refine ih hm.2.2.2 hm'.2.2.2 fun a => ?_
          by_cases ha : k = a
          · subst ha
            rw [read_below_of_wfFrom hm.2.2.2 (Nat.lt_succ_self _), read_below_of_wfFrom hm'.2.2.2 (Nat.lt_succ_self _)]
          · simpa [Memory.read, ha] using h a
        rw [this]
      · have := h k'
        have hk : k ≠ k' := by omega
        simp [Memory.read, hk, read_below_of_wfFrom hm.2.2.2 (show k' < k + 1 by omega)] at this
        exact absurd this.symm hm'.2.2.1

/-- Equal memories are equal data: two canonical memories with the same bytes are the same list. -/
theorem eq_of_wf {m m' : Memory} (hm : m.wf = true) (hm' : m'.wf = true) (h : ∀ a, m.read a = m'.read a) : m = m' :=
  eq_of_wfFrom hm hm' h

/-! The multi-byte accesses. -/

/-- Everything a block read can do (R220, R223): in range it answers the bytes; else it raises at the first address above
0xFFF. -/
theorem loadBytes_cases (m : Memory) (base n : Nat) :
    (base + n ≤ 0x1000 ∧ loadBytes m base n = .ok ((List.range n).map fun k => m.read (base + k))) ∨
    (n = 0 ∧ loadBytes m base n = .ok []) ∨
    (0 < n ∧ 0x1000 < base + n ∧ loadBytes m base n = .error ⟨.dataOutOfRange, max base 0x1000⟩) := by
  induction n generalizing base with
  | zero => exact .inr (.inl ⟨rfl, rfl⟩)
  | succ n ih =>
    by_cases hb : base > 0xFFF
    · refine .inr (.inr ⟨by omega, by omega, ?_⟩)
      simp only [loadBytes, memRead, if_pos hb]
      rw [max_eq_left (by omega)]
    · simp only [loadBytes, memRead, if_neg hb]
      rcases ih (base + 1) with ⟨h, e⟩ | ⟨h, e⟩ | ⟨h, h', e⟩
      · refine .inl ⟨by omega, ?_⟩
        rw [e]
        simp [List.range_succ_eq_map, Function.comp_def, Nat.add_assoc, Nat.add_comm 1]
      · subst h
        refine .inl ⟨by omega, ?_⟩
        simp [e, List.range_succ_eq_map]
      · refine .inr (.inr ⟨by omega, by omega, ?_⟩)
        rw [e, max_eq_right (by omega : base + 1 ≤ 0x1000), max_eq_right (by omega : base ≤ 0x1000)]

/-- A block read that stays inside memory, or reads nothing. -/
theorem loadBytes_ok {m : Memory} {base n : Nat} (h : base + n ≤ 0x1000 ∨ n = 0) :
    loadBytes m base n = .ok ((List.range n).map fun k => m.read (base + k)) := by
  rcases loadBytes_cases m base n with ⟨_, e⟩ | ⟨hz, e⟩ | ⟨h1, h2, _⟩
  · exact e
  · subst hz; exact e
  · omega

/-- A block read that leaves memory raises at the first address above 0xFFF. -/
theorem loadBytes_error {m : Memory} {base n : Nat} (h0 : 0 < n) (h : 0x1000 < base + n) :
    loadBytes m base n = .error ⟨.dataOutOfRange, max base 0x1000⟩ := by
  rcases loadBytes_cases m base n with ⟨_, _⟩ | ⟨_, _⟩ | ⟨_, _, e⟩
  · omega
  · omega
  · exact e

/-- Everything a block write can do (R221, R223): in range it answers a memory that holds the bytes and is canonical if it
was; else it raises at the first address above 0xFFF. -/
theorem storeBytes_cases (m : Memory) (base : Nat) (bs : List Byte) :
    ((base + bs.length ≤ 0x1000 ∨ bs = []) ∧ ∃ m', storeBytes m base bs = .ok m' ∧
      (∀ a, m'.read a = if h : base ≤ a ∧ a < base + bs.length then bs[a - base]'(by omega) else m.read a) ∧
      (m.wf = true → m'.wf = true)) ∨
    (bs ≠ [] ∧ 0x1000 < base + bs.length ∧ storeBytes m base bs = .error ⟨.dataOutOfRange, max base 0x1000⟩) := by
  induction bs generalizing m base with
  | nil => exact .inl ⟨.inr rfl, m, rfl, fun a => by simp, id⟩
  | cons b bs ih =>
    by_cases hb : base > 0xFFF
    · refine .inr ⟨by simp, by simp; omega, ?_⟩
      simp only [storeBytes, memWrite, if_pos hb]
      rw [max_eq_left (by omega)]
    · simp only [storeBytes, memWrite, if_neg hb]
      rcases ih (m.write base b) (base + 1) with ⟨h, m', e, hr, hw⟩ | ⟨hne, h', e⟩
      · refine .inl ⟨.inl ?_, m', e, fun a => ?_, fun hm => hw (wf_write b (by omega) hm)⟩
        · rcases h with h | h
          · simp; omega
          · subst h; simp; omega
        · rw [hr a]
          by_cases h1 : base + 1 ≤ a ∧ a < base + 1 + bs.length
          · have h2 : base ≤ a ∧ a < base + (b :: bs).length := by simp; omega
            have e : a - base = a - (base + 1) + 1 := by omega
            simp only [h1, h2, and_self, dite_true, e, List.getElem_cons_succ]
          · by_cases h3 : base = a
            · subst h3
              simp [read_write_same]
            · have h2 : ¬(base ≤ a ∧ a < base + (b :: bs).length) := by simp; omega
              rw [dif_neg h1, dif_neg h2, read_write_other _ _ h3]
      · refine .inr ⟨by simp, by simp; omega, ?_⟩
        have hb' : base + 1 ≤ 0x1000 := by omega
        rw [e, max_eq_right hb', max_eq_right (by omega : base ≤ 0x1000)]

/-- LoadRom's copy: the bytes are there, the others are as they were, and the canonical form is kept (R820). -/
theorem writeAll_spec (m : Memory) (base : Nat) (bs : List Byte) :
    (∀ a, (m.writeAll base bs).read a =
      if h : base ≤ a ∧ a < base + bs.length then bs[a - base]'(by omega) else m.read a) ∧
    (base + bs.length ≤ 0x1000 → m.wf = true → (m.writeAll base bs).wf = true) := by
  induction bs generalizing m base with
  | nil => exact ⟨fun a => by simp [Memory.writeAll], fun _ h => h⟩
  | cons b bs ih =>
    obtain ⟨hr, hw⟩ := ih (m.write base b) (base + 1)
    refine ⟨fun a => ?_, fun hl hm => hw (by simp at hl; omega) (wf_write b (by simp at hl; omega) hm)⟩
    rw [Memory.writeAll, hr a]
    by_cases h1 : base + 1 ≤ a ∧ a < base + 1 + bs.length
    · have h2 : base ≤ a ∧ a < base + (b :: bs).length := by simp; omega
      have e : a - base = a - (base + 1) + 1 := by omega
      simp only [h1, h2, and_self, dite_true, e, List.getElem_cons_succ]
    · by_cases h3 : base = a
      · subst h3
        simp [read_write_same]
      · have h2 : ¬(base ≤ a ∧ a < base + (b :: bs).length) := by simp; omega
        rw [dif_neg h1, dif_neg h2, read_write_other _ _ h3]

end Sys2Proof.Machine
end

