-- ==== Sys2Proof/Laws/Machine.lean ====
section
/-! SUPPORT. Everything a shared operation can do: the end of a Step, the stack, the keys, dispatch, the Step itself. -/

namespace Sys2Proof.Machine

/-! The end of a Step. -/

@[simp] theorem finish_ok (s t : State) (op : Word) : s.finish op (.ok t) = .next t := rfl

@[simp] theorem finish_error (s : State) (op : Word) (r : Raise) :
    s.finish op (.error r) = .next (s.enterFault op r) := rfl

/-- A Step's end is always a next state: the rule's, or fault entry from the start of the Step (R710, R712). -/
theorem finish_cases {s t : State} {op : Word} {result : Except Raise State} (h : s.finish op result = .next t) :
    result = .ok t ∨ ∃ r, result = .error r ∧ t = s.enterFault op r := by
  cases result with
  | ok u => exact .inl (by simpa using h)
  | error r => exact .inr ⟨r, rfl, by simpa using h.symm⟩

theorem finish_next (s : State) (op : Word) (result : Except Raise State) : ∃ t, s.finish op result = .next t := by
  cases result <;> exact ⟨_, rfl⟩

/-! The stack (R404, R401). -/

theorem push_ok {s : State} (ret : Word) (h : s.sp.val < 16) :
    s.push ret = .ok { s with stack := s.stack.set s.sp.val ret, sp := ⟨s.sp.val + 1, by omega⟩ } := by
  simp [State.push, h]

theorem push_error {s : State} (ret : Word) (h : s.sp.val = 16) : s.push ret = .error ⟨.stackOverflow, 0⟩ := by
  simp [State.push, h]

theorem popPc_ok {s : State} (h : s.sp.val ≠ 0) :
    s.popPc = .ok { s with sp := ⟨s.sp.val - 1, by omega⟩, pc := s.stack[s.sp.val - 1]'(by omega) } := by
  simp [State.popPc, h]

theorem popPc_error {s : State} (h : s.sp.val = 0) : s.popPc = .error ⟨.stackUnderflow, 0⟩ := by
  simp [State.popPc, h]

/-! Keys (R603). -/

/-- `lowestKey` answers none exactly with no key pressed, and else the lowest pressed key. -/
theorem lowestKey_cases (keys : BitVec 16) :
    (lowestKey keys = none ∧ ∀ k < 16, keys.getLsbD k = false) ∨
    ∃ k < 16, lowestKey keys = some k ∧ keys.getLsbD k = true ∧ ∀ j < k, keys.getLsbD j = false := by
  unfold lowestKey
  cases h : (List.range 16).find? (fun k => keys.getLsbD k) with
  | none =>
    refine .inl ⟨rfl, fun k hk => ?_⟩
    have := List.find?_eq_none.1 h k (List.mem_range.2 hk)
    simpa using this
  | some k =>
    rw [List.find?_range_eq_some] at h
    exact .inr ⟨k, List.mem_range.1 h.2.1, rfl, h.1, fun j hj => by simpa using h.2.2 j hj⟩

/-! Dispatch and the Step. -/

/-- Every instruction answers a next state, whatever the state: none stops the model (R351, R710). -/
theorem exec_next (i : Instr) (s : State) : ∃ t, exec i s = .next t := by
  cases i <;> first | exact ⟨_, rfl⟩ | exact finish_next _ _ _

/-- FetchRead in range and out of range (R222, R224). -/
theorem fetchRead_ok (m : Memory) {a : Nat} (h : a ≤ 0xFFE) :
    fetchRead m a = .ok (wordOfBytes (m.read a) (m.read (a + 1))) := by
  simp [fetchRead, show ¬ a > 0xFFE by omega]

theorem fetchRead_error (m : Memory) {a : Nat} (h : a > 0xFFE) :
    fetchRead m a = .error ⟨.fetchOutOfRange, max a 0x1000⟩ := by
  by_cases h' : a > 0xFFF
  · simp [fetchRead, h, h', max_eq_left (show 0x1000 ≤ a by omega)]
  · have : a = 0xFFF := by omega
    subst this; rfl

/-- How a Step begins, by the state it finds (R320, R713). -/
theorem beginStep_cases (s : State) :
    (s.fault.halted = true ∧ beginStep s = .ended s (.fault s.fault.code)) ∨
    (s.fault.halted = false ∧ s.pc.toNat > 0xFFE ∧
      beginStep s = .ended (s.enterFault 0 ⟨.fetchOutOfRange, max s.pc.toNat 0x1000⟩) (.fault 1)) ∨
    (s.fault.halted = false ∧ s.pc.toNat ≤ 0xFFE ∧
      ∃ w, decode (wordOfBytes (s.mem.read s.pc.toNat) (s.mem.read (s.pc.toNat + 1))) = .error w ∧
        beginStep s = .ended s.advancePc .unknownOpcode) ∨
    (s.fault.halted = false ∧ s.pc.toNat ≤ 0xFFE ∧
      ∃ i, decode (wordOfBytes (s.mem.read s.pc.toNat) (s.mem.read (s.pc.toNat + 1))) = .ok i ∧
        beginStep s = .run i) := by
  unfold beginStep
  by_cases hh : s.fault.halted
  · exact .inl ⟨hh, by simp [hh]⟩
  · rw [Bool.not_eq_true] at hh
    by_cases hp : s.pc.toNat > 0xFFE
    · exact .inr (.inl ⟨hh, hp, by simp [hh, fetchRead_error s.mem hp, Fault.code]⟩)
    · rw [fetchRead_ok s.mem (by omega)]
      cases hd : decode (wordOfBytes (s.mem.read s.pc.toNat) (s.mem.read (s.pc.toNat + 1))) with
      | error w => exact .inr (.inr (.inl ⟨hh, by omega, w, rfl, by simp [hh, hd]⟩))
      | ok i => exact .inr (.inr (.inr ⟨hh, by omega, i, rfl, by simp [hh, hd]⟩))

/-- Everything a Step can do. -/
theorem step_cases {s t : State} (h : step s = .next t) :
    (s.fault.halted = true ∧ t = s) ∨
    (s.fault.halted = false ∧ s.pc.toNat > 0xFFE ∧
      t = s.enterFault 0 ⟨.fetchOutOfRange, max s.pc.toNat 0x1000⟩) ∨
    (s.fault.halted = false ∧ s.pc.toNat ≤ 0xFFE ∧
      (∃ w, decode (wordOfBytes (s.mem.read s.pc.toNat) (s.mem.read (s.pc.toNat + 1))) = .error w) ∧ t = s.advancePc) ∨
    (s.fault.halted = false ∧ s.pc.toNat ≤ 0xFFE ∧
      ∃ i, decode (wordOfBytes (s.mem.read s.pc.toNat) (s.mem.read (s.pc.toNat + 1))) = .ok i ∧ exec i s = .next t) := by
  unfold step at h
  rcases beginStep_cases s with ⟨a, e⟩ | ⟨a, b, e⟩ | ⟨a, b, w, d, e⟩ | ⟨a, b, i, d, e⟩ <;>
    simp only [e, Host.Outcome.next.injEq] at h
  · exact .inl ⟨a, h.symm⟩
  · exact .inr (.inl ⟨a, b, h.symm⟩)
  · exact .inr (.inr (.inl ⟨a, b, ⟨w, d⟩, h.symm⟩))
  · exact .inr (.inr (.inr ⟨a, b, i, d, h⟩))

end Sys2Proof.Machine
end

