-- ==== Sys2Proof/Laws/PerInstr.lean ====
section
/-! SUPPORT. Statements about every instruction as syntax, one lemma per constructor (LAWS.json, per_instruction). -/

namespace Sys2Proof.Laws.RowOfTable

/-- The word of an instruction lies in its row of the opcode table: word & mask = match (spec/30_encoding.md R340). -/
def Statement (i : Instr) : Prop := encode i &&& i.row.mask = i.row.bits

theorem cls : Statement .cls := rfl

theorem ret : Statement .ret := rfl

theorem sys (nnn : BitVec 12) : Statement (.sys nnn) := (formNnn_and _ _).trans rfl

theorem jp (nnn : BitVec 12) : Statement (.jp nnn) := (formNnn_and _ _).trans rfl

theorem call (nnn : BitVec 12) : Statement (.call nnn) := (formNnn_and _ _).trans rfl

theorem seVxKk (x : Reg) (kk : Byte) : Statement (.seVxKk x kk) := (formXkk_and _ _ _).trans rfl

theorem sneVxKk (x : Reg) (kk : Byte) : Statement (.sneVxKk x kk) := (formXkk_and _ _ _).trans rfl

theorem seVxVy (x y : Reg) : Statement (.seVxVy x y) := (formXyf_and _ _ _ _).trans rfl

theorem ldVxKk (x : Reg) (kk : Byte) : Statement (.ldVxKk x kk) := (formXkk_and _ _ _).trans rfl

theorem addVxKk (x : Reg) (kk : Byte) : Statement (.addVxKk x kk) := (formXkk_and _ _ _).trans rfl

theorem ldVxVy (x y : Reg) : Statement (.ldVxVy x y) := (formXyf_and _ _ _ _).trans rfl

theorem orVxVy (x y : Reg) : Statement (.orVxVy x y) := (formXyf_and _ _ _ _).trans rfl

theorem andVxVy (x y : Reg) : Statement (.andVxVy x y) := (formXyf_and _ _ _ _).trans rfl

theorem xorVxVy (x y : Reg) : Statement (.xorVxVy x y) := (formXyf_and _ _ _ _).trans rfl

theorem addVxVy (x y : Reg) : Statement (.addVxVy x y) := (formXyf_and _ _ _ _).trans rfl

theorem subVxVy (x y : Reg) : Statement (.subVxVy x y) := (formXyf_and _ _ _ _).trans rfl

theorem shrVxVy (x y : Reg) : Statement (.shrVxVy x y) := (formXyf_and _ _ _ _).trans rfl

theorem subnVxVy (x y : Reg) : Statement (.subnVxVy x y) := (formXyf_and _ _ _ _).trans rfl

theorem shlVxVy (x y : Reg) : Statement (.shlVxVy x y) := (formXyf_and _ _ _ _).trans rfl

theorem sneVxVy (x y : Reg) : Statement (.sneVxVy x y) := (formXyf_and _ _ _ _).trans rfl

theorem ldINnn (nnn : BitVec 12) : Statement (.ldINnn nnn) := (formNnn_and _ _).trans rfl

theorem jpV0Nnn (nnn : BitVec 12) : Statement (.jpV0Nnn nnn) := (formNnn_and _ _).trans rfl

theorem rndVxKk (x : Reg) (kk : Byte) : Statement (.rndVxKk x kk) := (formXkk_and _ _ _).trans rfl

theorem drw (x y : Reg) (n : BitVec 4) : Statement (.drw x y n) := (formXyn_and _ _ _ _).trans rfl

theorem skp (x : Reg) : Statement (.skp x) := (formXff_and _ _ _).trans rfl

theorem sknp (x : Reg) : Statement (.sknp x) := (formXff_and _ _ _).trans rfl

theorem ldVxDt (x : Reg) : Statement (.ldVxDt x) := (formXff_and _ _ _).trans rfl

theorem ldVxK (x : Reg) : Statement (.ldVxK x) := (formXff_and _ _ _).trans rfl

theorem ldDtVx (x : Reg) : Statement (.ldDtVx x) := (formXff_and _ _ _).trans rfl

theorem ldStVx (x : Reg) : Statement (.ldStVx x) := (formXff_and _ _ _).trans rfl

theorem addIVx (x : Reg) : Statement (.addIVx x) := (formXff_and _ _ _).trans rfl

theorem ldFVx (x : Reg) : Statement (.ldFVx x) := (formXff_and _ _ _).trans rfl

theorem ldBVx (x : Reg) : Statement (.ldBVx x) := (formXff_and _ _ _).trans rfl

theorem ldMemVx (x : Reg) : Statement (.ldMemVx x) := (formXff_and _ _ _).trans rfl

theorem ldVxMem (x : Reg) : Statement (.ldVxMem x) := (formXff_and _ _ _).trans rfl

end Sys2Proof.Laws.RowOfTable
end

