-- ==== Sys2Proof/Tests/Slice0.lean ====
section
/-! SUPPORT. The model's own tests: the WellFormed smoke test, a word written out for every constructor, one Step per test with the results of spec/95_test_vectors.md, and for every statement with hypotheses a state and operands that meet them. -/

namespace Sys2Proof.Tests

open Sys2Proof Sys2Proof.Machine

/-! Helpers. -/

/-- The reset state with no key pressed, so that it can be evaluated. -/
def base : State := { State.reset with keys := 0 }

/-- `base` with the cells of a list written. -/
def withCells (s : State) : List (Nat × Byte) → State
  | [] => s
  | (a, b) :: rest => withCells (s.setMem (s.mem.write a b)) rest

/-- The outcome is a next state with this property. -/
def nextIs (o : Host.Outcome State Fault Refusal) (p : State → Bool) : Bool :=
  match o with
  | .next t => p t
  | .fault _ => false
  | .refused _ => false

/-- One Step of `s` with the word placed at PC. -/
def run (w : Nat) (s : State) (p : State → Bool) : Bool := nextIs (step (s.withFetchWord 16 w)) p

/-- PC is two past the program start and the core is not halted. -/
def wentOn (t : State) : Bool := t.pc == 0x202 && !t.fault.halted

/-- Only pixel 0 is 1. -/
def oneSet : Pixels := blankScreen.set 0 1

/-- `base` with two registers set. -/
def regs2 (x : Reg) (a : Byte) (y : Reg) (b : Byte) : State := (base.setReg x a).setReg y b

/-! WellFormed: the check on SYS refuses the words of CLS and RET (R341). -/

theorem test_wf_refuses_sys_0E0 : (Instr.sys 0x0E0).wf = false := by decide
theorem test_wf_refuses_sys_0EE : (Instr.sys 0x0EE).wf = false := by decide
theorem test_wf_accepts_sys_1E0 : (Instr.sys 0x1E0).wf = true := by decide

/-! Decoding: a word of every row, written out nibble by nibble from the patterns of 30_encoding.md R340. -/

theorem test_decode_cls : decode 0x00E0 = .ok (.cls) ∧ encode (.cls) = 0x00E0 := by decide
theorem test_decode_ret : decode 0x00EE = .ok (.ret) ∧ encode (.ret) = 0x00EE := by decide
theorem test_decode_sys : decode 0x0AE0 = .ok (.sys 0xAE0) ∧ encode (.sys 0xAE0) = 0x0AE0 := by decide
theorem test_decode_jp : decode 0x1ABC = .ok (.jp 0xABC) ∧ encode (.jp 0xABC) = 0x1ABC := by decide
theorem test_decode_call : decode 0x2210 = .ok (.call 0x210) ∧ encode (.call 0x210) = 0x2210 := by decide
theorem test_decode_seVxKk : decode 0x3307 = .ok (.seVxKk 3 0x07) ∧ encode (.seVxKk 3 0x07) = 0x3307 := by decide
theorem test_decode_sneVxKk : decode 0x4307 = .ok (.sneVxKk 3 0x07) ∧ encode (.sneVxKk 3 0x07) = 0x4307 := by decide
theorem test_decode_seVxVy : decode 0x5120 = .ok (.seVxVy 1 2) ∧ encode (.seVxVy 1 2) = 0x5120 := by decide
theorem test_decode_ldVxKk : decode 0x65AB = .ok (.ldVxKk 5 0xAB) ∧ encode (.ldVxKk 5 0xAB) = 0x65AB := by decide
theorem test_decode_addVxKk : decode 0x7FFE = .ok (.addVxKk 0xF 0xFE) ∧ encode (.addVxKk 0xF 0xFE) = 0x7FFE := by decide
theorem test_decode_ldVxVy : decode 0x8010 = .ok (.ldVxVy 0 1) ∧ encode (.ldVxVy 0 1) = 0x8010 := by decide
theorem test_decode_orVxVy : decode 0x8231 = .ok (.orVxVy 2 3) ∧ encode (.orVxVy 2 3) = 0x8231 := by decide
theorem test_decode_andVxVy : decode 0x8452 = .ok (.andVxVy 4 5) ∧ encode (.andVxVy 4 5) = 0x8452 := by decide
theorem test_decode_xorVxVy : decode 0x8673 = .ok (.xorVxVy 6 7) ∧ encode (.xorVxVy 6 7) = 0x8673 := by decide
theorem test_decode_addVxVy : decode 0x8F14 = .ok (.addVxVy 0xF 1) ∧ encode (.addVxVy 0xF 1) = 0x8F14 := by decide
theorem test_decode_subVxVy : decode 0x80F5 = .ok (.subVxVy 0 0xF) ∧ encode (.subVxVy 0 0xF) = 0x80F5 := by decide
theorem test_decode_shrVxVy : decode 0x8076 = .ok (.shrVxVy 0 7) ∧ encode (.shrVxVy 0 7) = 0x8076 := by decide
theorem test_decode_subnVxVy : decode 0x8AB7 = .ok (.subnVxVy 0xA 0xB) ∧ encode (.subnVxVy 0xA 0xB) = 0x8AB7 := by decide
theorem test_decode_shlVxVy : decode 0x801E = .ok (.shlVxVy 0 1) ∧ encode (.shlVxVy 0 1) = 0x801E := by decide
theorem test_decode_sneVxVy : decode 0x9120 = .ok (.sneVxVy 1 2) ∧ encode (.sneVxVy 1 2) = 0x9120 := by decide
theorem test_decode_ldINnn : decode 0xA250 = .ok (.ldINnn 0x250) ∧ encode (.ldINnn 0x250) = 0xA250 := by decide
theorem test_decode_jpV0Nnn : decode 0xB5F0 = .ok (.jpV0Nnn 0x5F0) ∧ encode (.jpV0Nnn 0x5F0) = 0xB5F0 := by decide
theorem test_decode_rndVxKk : decode 0xC30F = .ok (.rndVxKk 3 0x0F) ∧ encode (.rndVxKk 3 0x0F) = 0xC30F := by decide
theorem test_decode_drw : decode 0xD125 = .ok (.drw 1 2 5) ∧ encode (.drw 1 2 5) = 0xD125 := by decide
theorem test_decode_skp : decode 0xE29E = .ok (.skp 2) ∧ encode (.skp 2) = 0xE29E := by decide
theorem test_decode_sknp : decode 0xE2A1 = .ok (.sknp 2) ∧ encode (.sknp 2) = 0xE2A1 := by decide
theorem test_decode_ldVxDt : decode 0xF307 = .ok (.ldVxDt 3) ∧ encode (.ldVxDt 3) = 0xF307 := by decide
theorem test_decode_ldVxK : decode 0xF20A = .ok (.ldVxK 2) ∧ encode (.ldVxK 2) = 0xF20A := by decide
theorem test_decode_ldDtVx : decode 0xF215 = .ok (.ldDtVx 2) ∧ encode (.ldDtVx 2) = 0xF215 := by decide
theorem test_decode_ldStVx : decode 0xF218 = .ok (.ldStVx 2) ∧ encode (.ldStVx 2) = 0xF218 := by decide
theorem test_decode_addIVx : decode 0xF21E = .ok (.addIVx 2) ∧ encode (.addIVx 2) = 0xF21E := by decide
theorem test_decode_ldFVx : decode 0xF429 = .ok (.ldFVx 4) ∧ encode (.ldFVx 4) = 0xF429 := by decide
theorem test_decode_ldBVx : decode 0xF033 = .ok (.ldBVx 0) ∧ encode (.ldBVx 0) = 0xF033 := by decide
theorem test_decode_ldMemVx : decode 0xFF55 = .ok (.ldMemVx 0xF) ∧ encode (.ldMemVx 0xF) = 0xFF55 := by decide
theorem test_decode_ldVxMem : decode 0xF265 = .ok (.ldVxMem 2) ∧ encode (.ldVxMem 2) = 0xF265 := by decide

/-- UNKNOWN words of each group (vectors FE-5 to FE-9). -/
theorem test_decode_unknown : decode 0x5121 = .error .group5 ∧ decode 0x8008 = .error .group8 ∧
    decode 0x912F = .error .group9 ∧ decode 0xE000 = .error .groupE ∧ decode 0xF30B = .error .groupF := by decide

theorem test_decodeTableWord : decodeTableWord 16 0xD125 = some (.drw 1 2 5) ∧ decodeTableWord 16 0x5121 = none := by decide

/-! One Step per test: the vectors of 95_test_vectors.md, by their ids. -/

theorem test_step_unknown_FE5 :
    (run 0x5121 base fun t => wentOn t && t.v == base.v) = true := by decide
theorem test_step_fetch_FE3 :
    (nextIs (step (base.setPc 0xFFF)) fun t =>
      t.fault == ⟨true, 1, 0xFFF, 0, 0x1000⟩ && t.pc == 0xFFF) = true := by decide
theorem test_step_fetch_FE4 :
    (nextIs (step (base.setPc 0x1000)) fun t =>
      t.fault == ⟨true, 1, 0x1000, 0, 0x1000⟩) = true := by decide
theorem test_step_last_word_FE2 :
    (run 0x00E0 ((base.setPc 0xFFE).setFb oneSet) fun t => t.fb == blankScreen && t.pc == 0x1000 && !t.fault.halted) = true := by decide
theorem test_step_odd_FE11 :
    (run 0x6007 (base.setPc 0x201) fun t => t.reg 0 == 0x07 && t.pc == 0x203) = true := by decide
theorem test_step_halted_FE12 :
    (nextIs (step (base.enterFault 0x2400 ⟨.stackOverflow, 0⟩)) fun t =>
      t.fault == ⟨true, 2, 0x200, 0x2400, 0⟩ && t.pc == 0x200) = true := by decide
theorem test_sys_FE10 :
    (run 0x0AE0 (base.setFb oneSet) fun t => wentOn t && t.fb == oneSet) = true := by decide
theorem test_jp_CF1 :
    (run 0x1ABC base fun t => t.pc == 0x0ABC) = true := by decide
theorem test_jpV0Nnn_CF5 :
    (run 0xBFFF (base.setReg 0 0xFF) fun t => t.pc == 0x10FE && !t.fault.halted) = true := by decide
theorem test_jpV0Nnn_CF6 :
    (run 0xB5F0 (regs2 0 0x20 5 0x99) fun t => t.pc == 0x0610) = true := by decide
theorem test_call_CF7 :
    (run 0x2210 (base.setPc 0x204) fun t => t.stack.get 0 == 0x0206 && t.sp == 1 && t.pc == 0x0210) = true := by decide
theorem test_call_CF9 :
    (run 0x2400 ({ base with sp := 16 }.setPc 0x300) fun t =>
      t.fault == ⟨true, 2, 0x300, 0x2400, 0⟩ && t.pc == 0x300 && t.sp == 16) = true := by decide
theorem test_ret_CF8 :
    (run 0x00EE ({ base with sp := 1, stack := base.stack.set 0 0x0206 }.setPc 0x212) fun t =>
      t.sp == 0 && t.pc == 0x0206 && t.stack.get 0 == 0x0206) = true := by decide
theorem test_ret_CF10 :
    (run 0x00EE (base.setPc 0x300) fun t => t.fault == ⟨true, 3, 0x300, 0x00EE, 0⟩ && t.pc == 0x300) = true := by decide
theorem test_seVxKk_CF12 :
    (run 0x3307 (base.setReg 3 0x07) fun t => t.pc == 0x204) = true := by decide
theorem test_seVxKk_CF13 :
    (run 0x3307 (base.setReg 3 0x08) fun t => t.pc == 0x202) = true := by decide
theorem test_sneVxKk_CF14 :
    (run 0x4307 (base.setReg 3 0x08) fun t => t.pc == 0x204) = true := by decide
theorem test_sneVxKk_CF15 :
    (run 0x4307 (base.setReg 3 0x07) fun t => t.pc == 0x202) = true := by decide
theorem test_seVxVy_CF16 :
    (run 0x5120 (regs2 1 0x40 2 0x40) fun t => t.pc == 0x204) = true := by decide
theorem test_seVxVy_CF17 :
    (run 0x5120 (regs2 1 0x40 2 0x41) fun t => t.pc == 0x202) = true := by decide
theorem test_sneVxVy_CF19 :
    (run 0x9120 (regs2 1 0x40 2 0x41) fun t => t.pc == 0x204) = true := by decide
theorem test_sneVxVy_CF20 :
    (run 0x9440 (base.setReg 4 0x33) fun t => t.pc == 0x202) = true := by decide
theorem test_ldVxKk_AL1 :
    (run 0x65AB base fun t => t.reg 5 == 0xAB && wentOn t) = true := by decide
theorem test_addVxKk_AL3 :
    (run 0x7001 (regs2 0 0xFF 15 0x55) fun t => t.reg 0 == 0x00 && t.reg 15 == 0x55) = true := by decide
theorem test_addVxKk_AL4 :
    (run 0x7FFF (base.setReg 15 0x01) fun t => t.reg 15 == 0x00) = true := by decide
theorem test_ldVxVy_AL6 :
    (run 0x8010 (base.setReg 1 0x33) fun t => t.reg 0 == 0x33) = true := by decide
theorem test_orVxVy_AL7 :
    (run 0x8011 ((regs2 0 0x0F 1 0xF0).setReg 15 0x77) fun t => t.reg 0 == 0xFF && t.reg 15 == 0x77) = true := by decide
theorem test_andVxVy_AL8 :
    (run 0x8012 (regs2 0 0x3C 1 0x0F) fun t => t.reg 0 == 0x0C) = true := by decide
theorem test_xorVxVy_AL9 :
    (run 0x8013 (regs2 0 0x3C 1 0x0F) fun t => t.reg 0 == 0x33) = true := by decide
theorem test_addVxVy_AL11 :
    (run 0x8014 (regs2 0 0xFF 1 0x01) fun t => t.reg 0 == 0x00 && t.reg 15 == 1) = true := by decide
theorem test_addVxVy_AL15 :
    (run 0x8F14 (regs2 15 0xF0 1 0x20) fun t => t.reg 15 == 0x01) = true := by decide
theorem test_subVxVy_AL20 :
    (run 0x8015 (regs2 0 0x00 1 0x01) fun t => t.reg 0 == 0xFF && t.reg 15 == 0) = true := by decide
theorem test_subVxVy_AL19 :
    (run 0x8015 (regs2 0 0x10 1 0x10) fun t => t.reg 0 == 0x00 && t.reg 15 == 0) = true := by decide
theorem test_shrVxVy_AL23 :
    (run 0x8006 (base.setReg 0 0x05) fun t => t.reg 0 == 0x02 && t.reg 15 == 1) = true := by decide
theorem test_shrVxVy_AL25 :
    (run 0x8F06 (base.setReg 15 0x03) fun t => t.reg 15 == 0x01) = true := by decide
theorem test_subnVxVy_AL26 :
    (run 0x8017 (regs2 0 0x10 1 0x30) fun t => t.reg 0 == 0x20 && t.reg 15 == 1) = true := by decide
theorem test_subnVxVy_AL28 :
    (run 0x8017 (regs2 0 0x02 1 0x01) fun t => t.reg 0 == 0xFF && t.reg 15 == 0) = true := by decide
theorem test_shlVxVy_AL30 :
    (run 0x800E (base.setReg 0 0x81) fun t => t.reg 0 == 0x02 && t.reg 15 == 1) = true := by decide
theorem test_shlVxVy_AL31 :
    (run 0x801E (base.setReg 0 0x40) fun t => t.reg 0 == 0x80 && t.reg 15 == 0) = true := by decide
theorem test_rndVxKk_AL34 :
    (run 0xC30F (base.setRandIn (some 0xA7)) fun t => t.reg 3 == 0x07 && t.draws == 1) = true := by decide
theorem test_rndVxKk_AL36 :
    (run 0xC3FF (base.setRandIn (some 0x5C)) fun t => t.reg 3 == 0x5C) = true := by decide
theorem test_ldINnn_IM1 :
    (run 0xA123 base fun t => t.idx == 0x0123) = true := by decide
theorem test_addIVx_IM2 :
    (run 0xF21E ((regs2 2 0x10 15 0x09).setIdx 0x0300) fun t => t.idx == 0x0310 && t.reg 15 == 0x09) = true := by decide
theorem test_addIVx_IM4 :
    (run 0xF01E ((base.setReg 0 0x01).setIdx 0xFFFF) fun t => t.idx == 0x0000) = true := by decide
theorem test_ldFVx_IM6 :
    (run 0xF029 (base.setReg 0 0x0F) fun t => t.idx == 0x009B) = true := by decide
theorem test_ldFVx_IM8 :
    (run 0xF029 (base.setReg 0 0xFF) fun t => t.idx == 0x054B) = true := by decide
theorem test_ldBVx_IM9 :
    (run 0xF033 ((base.setReg 0 0xFE).setIdx 0x300) fun t =>
      t.mem.read 0x300 == 2 && t.mem.read 0x301 == 5 && t.mem.read 0x302 == 4 && t.idx == 0x300 && wentOn t) = true := by decide
theorem test_ldBVx_IM14 :
    (run 0xF033 ((base.setReg 0 0x09).setIdx 0xFFE) fun t =>
      t.fault == ⟨true, 4, 0x200, 0xF033, 0x1000⟩ && t.mem.read 0xFFE == 0 && t.pc == 0x200) = true := by decide
theorem test_ldMemVx_IM15 :
    (run 0xF155 ((regs2 0 0x11 1 0x22).setIdx 0x400) fun t =>
      t.mem.read 0x400 == 0x11 && t.mem.read 0x401 == 0x22 && t.mem.read 0x402 == 0 && t.idx == 0x0402) = true := by decide
theorem test_ldMemVx_IM18 :
    (run 0xFF55 ((base.setReg 0 0x11).setIdx 0xFF1) fun t =>
      t.fault == ⟨true, 4, 0x200, 0xFF55, 0x1000⟩ && t.mem.read 0xFF1 == 0 && t.idx == 0xFF1) = true := by decide
theorem test_ldVxMem_IM19 :
    (run 0xF265 ((withCells base [(0x300, 2), (0x301, 5), (0x302, 4)]).setIdx 0x300) fun t =>
      t.reg 0 == 2 && t.reg 1 == 5 && t.reg 2 == 4 && t.reg 3 == 0 && t.idx == 0x300) = true := by decide
theorem test_ldVxMem_IM21 :
    (run 0xF065 ((base.setReg 0 0x77).setIdx 0x1000) fun t =>
      t.fault == ⟨true, 4, 0x200, 0xF065, 0x1000⟩ && t.reg 0 == 0x77) = true := by decide
theorem test_cls_DR1 :
    (run 0x00E0 ((base.setReg 15 0x07).setFb oneSet) fun t => t.fb == blankScreen && t.reg 15 == 0x07 && wentOn t) = true := by decide
theorem test_drw_DR4_wraps_columns :
    (run 0xD011 ((withCells (base.setReg 0 60) [(0x300, 0xFF)]).setIdx 0x300) fun t =>
      t.fb == blankScreen.set 0 0xF00000000000000F && t.reg 15 == 0) = true := by decide
theorem test_drw_DR8_keeps_collision :
    (run 0xD011 (((withCells base [(0x300, 0xC0)]).setIdx 0x300).setFb (blankScreen.set 0 2)) fun t =>
      t.fb == oneSet && t.reg 15 == 1) = true := by decide
theorem test_skp_KT3_low_nibble :
    (run 0xE29E ((base.setReg 2 0x15).setKeys 0x0020) fun t => t.pc == 0x204) = true := by decide
theorem test_skp_KT2 :
    (run 0xE29E (base.setReg 2 0x05) fun t => t.pc == 0x202) = true := by decide
theorem test_sknp_KT4 :
    (run 0xE2A1 (base.setReg 2 0x05) fun t => t.pc == 0x204) = true := by decide
theorem test_sknp_KT5 :
    (run 0xE2A1 ((base.setReg 2 0x05).setKeys 0x0020) fun t => t.pc == 0x202) = true := by decide
theorem test_ldVxK_KT6 :
    (run 0xF20A (base.setReg 2 0x33) fun t => t.pc == 0x200 && t.reg 2 == 0x33) = true := by decide
theorem test_ldVxK_KT7 :
    (run 0xF20A (base.setKeys 0x0220) fun t => t.pc == 0x202 && t.reg 2 == 0x05) = true := by decide
theorem test_ldVxDt_KT9 :
    (run 0xF307 (base.setDt 0x3C) fun t => t.reg 3 == 0x3C && wentOn t) = true := by decide
theorem test_ldDtVx_KT10 :
    (run 0xF215 (base.setReg 2 0x05) fun t => t.dt == 0x05 && t.st == 0) = true := by decide
theorem test_ldStVx_KT11 :
    (run 0xF218 (base.setReg 2 0x10) fun t => t.st == 0x10 && t.dt == 0) = true := by decide

/-! The host's operations (KT-12 to KT-15, RL-1 to RL-4). -/

theorem test_tick_KT12 : ((base.setDt 1).setSt 3).tickTimers.dt = 0 ∧ ((base.setDt 1).setSt 3).tickTimers.st = 2 := by
  decide
theorem test_setKeys_KT15 : (perform (.setKeys 0x0220) (base.setKeys 0x8001)).1.keys = 0x0220 := by decide
theorem test_loadRom_rejects_empty_RL4 : (perform (.loadRom []) base).2 = .romRejected := by decide
theorem test_loadRom_W1 : (perform (.loadRom [0x60, 0x0A]) base).2 = .romOk ∧
    (perform (.loadRom [0x60, 0x0A]) base).1.mem = [(0x200, 0x60), (0x201, 0x0A)] := by decide
theorem test_reset_keeps_keys_RL1 :
    (perform .reset ((base.setKeys 5).enterFault 0 ⟨.fetchOutOfRange, 0⟩)).1.keys = 5 ∧
    (perform .reset ((base.setKeys 5).enterFault 0 ⟨.fetchOutOfRange, 0⟩)).1.fault.halted = false := by decide
theorem test_hostStep_status_FE6 : (perform (.step 0) (base.withFetchWord 16 0x8008)).2 = .status .unknownOpcode := by
  decide
theorem test_write_drops_default : (base.mem.write 0x300 7).write 0x300 0 = [] := by decide
theorem test_default_font_size : Config.defaultFont.length = Config.fontSize := by decide

/-! Witnesses: for every statement with hypotheses, a state and operands that meet them, at the bounds of each clause. -/

theorem nextIs_next {o : Host.Outcome State Fault Refusal} (h : nextIs o (fun _ => true) = true) : ∃ t, o = .next t := by
  cases o with
  | next t => exact ⟨t, rfl⟩
  | fault r => cases h
  | refused r => cases h

/-- A state that meets the invariant. -/
theorem base_inv : base.Inv where
  memory := rfl
  pc := by decide
  stack := by decide
  fault := by simp [FaultRecord.Coherent, base, State.reset, FaultRecord.clear]

theorem witness_DecodeOfEncode : (Instr.sys 0x0E1).wf = true ∧ (Instr.drw 15 15 15).wf = true := by decide
theorem witness_EncodeOfDecode : decode 0x80F6 = .ok (.shrVxVy 0 15) := by decide
theorem witness_DecodeFollowsOpcodeTable : decode 0xF065 = .ok (.ldVxMem 0) ∧
    0x0AE0#16 &&& (Instr.sys 0).row.mask = (Instr.sys 0).row.bits ∧ 0x0AE0#16 ≠ 0x00E0 ∧ 0x0AE0#16 ≠ 0x00EE := by decide
theorem witness_StepRunsDecodedInstruction : base.fault.halted = false ∧ base.pc.toNat ≤ 0xFFE ∧
    decode (wordAtPc base) = .ok (.sys 0) := by decide
theorem witness_StepOnUnknownWord : (withCells base [(0x200, 0x51), (0x201, 0x21)]).fault.halted = false ∧
    (withCells base [(0x200, 0x51), (0x201, 0x21)]).pc.toNat ≤ 0xFFE ∧
    decode (wordAtPc (withCells base [(0x200, 0x51), (0x201, 0x21)])) = .error .group5 := by decide
theorem witness_FetchOutOfRangeFaults : (base.setPc 0xFFF).fault.halted = false ∧ (base.setPc 0xFFF).pc.toNat > 0xFFE ∧
    (base.setPc 0xFFFF).pc.toNat > 0xFFE := by decide
theorem witness_HaltedStepChangesNothing : (base.enterFault 0 ⟨.fetchOutOfRange, 0⟩).fault.halted = true := by decide
theorem witness_StatusOfEveryStep : (∃ t, step base = .next t) ∧ ∃ t, step (base.setPc 0xFFF) = .next t :=
  ⟨nextIs_next (by decide), nextIs_next (by decide)⟩
theorem witness_RandomByteMasked : 0x05#8 &&& ~~~(0x0F#8) = 0 := by decide
theorem witness_flag_destination : (0 : Reg) ≠ 15 ∧ (14 : Reg) ≠ 15 := by decide
theorem witness_StoreDecimalDigits : (base.setIdx 0xFFD).idx.toNat + 2 ≤ 0xFFF ∧ base.mem.wf = true := by decide
theorem witness_StoreRegisterBlock : (base.setIdx 0xFF0).idx.toNat + (15 : Reg).val ≤ 0xFFF ∧
    (base.setIdx 0xFFF).idx.toNat + (0 : Reg).val ≤ 0xFFF ∧ base.mem.wf = true := by decide
theorem witness_LoadRegisterBlock : (base.setIdx 0xFF0).idx.toNat + (15 : Reg).val ≤ 0xFFF := by decide
theorem witness_MemoryAccessFaults : (base.setIdx 0xFFE).idx.toNat + 2 > 0xFFF ∧
    (base.setIdx 0xFF1).idx.toNat + (15 : Reg).val > 0xFFF ∧ (base.setIdx 0x1000).idx.toNat + (0 : Reg).val > 0xFFF ∧
    1 ≤ (3#4).toNat ∧ (base.setIdx 0xFFE).idx.toNat + ((3#4).toNat - 1) > 0xFFF := by decide
theorem witness_StoredBlockLoadsBack : ∃ t u : State, (base.setIdx 0x300).idx.toNat + (3 : Reg).val ≤ 0xFFF ∧
    exec (.ldMemVx 3) (base.setIdx 0x300) = .next t ∧ u.mem = t.mem ∧ u.idx = (base.setIdx 0x300).idx := by
  obtain ⟨t, h⟩ := nextIs_next (o := exec (.ldMemVx 3) (base.setIdx 0x300)) (by decide)
  exact ⟨t, t.setIdx 0x300, by decide, h, rfl, rfl⟩
theorem witness_StoredWordIsFetched : ∃ (t u : State) (i : Instr), 1 ≤ (1 : Reg).val ∧ (base.setIdx 0x300).idx.toNat + (1 : Reg).val ≤ 0xFFF ∧
    exec (.ldMemVx 1) (base.setIdx 0x300) = .next t ∧
    decode (wordOfBytes ((base.setIdx 0x300).reg 0) ((base.setIdx 0x300).reg 1)) = .ok i ∧
    u.mem = t.mem ∧ u.pc = (base.setIdx 0x300).idx ∧ u.fault.halted = false := by
  obtain ⟨t, h⟩ := nextIs_next (o := exec (.ldMemVx 1) (base.setIdx 0x300)) (by decide)
  exact ⟨t, (base.setMem t.mem).setPc 0x300, .sys 0, by decide, by decide, h, by decide, rfl, rfl, rfl⟩
theorem witness_SysOnlyAdvances : 0x0E1#12 ≠ 0x0E0 ∧ 0x0E1#12 ≠ 0x0EE := by decide
theorem witness_CallPushesOrOverflows : base.sp.val < 16 ∧ { base with sp := 15 }.sp.val < 16 ∧
    { base with sp := 16 }.sp.val = 16 := by decide
theorem witness_ReturnPopsOrUnderflows : 0 < { base with sp := 1 }.sp.val ∧ 0 < { base with sp := 16 }.sp.val ∧
    base.sp.val = 0 := by decide
theorem witness_CallThenReturn : ∃ t u : State, { base with sp := 15 }.sp.val < 16 ∧
    exec (.call 0x300) { base with sp := 15 } = .next t ∧ u.sp = t.sp ∧ u.stack = t.stack := by
  obtain ⟨t, h⟩ := nextIs_next (o := exec (.call 0x300) { base with sp := 15 }) (by decide)
  exact ⟨t, t, by decide, h, rfl, rfl⟩

/-- A sprite of one row with one bit set, at the last byte of memory, on a blank screen. -/
def drawState : State := (withCells base [(0xFFF, 0x80)]).setIdx 0xFFF

theorem drawState_blank (px py : Nat) : ¬ PixelSet drawState px py := by
  simp [PixelSet, pixelAt, drawState, withCells, base, State.reset, State.setIdx, State.setMem]

theorem witness_DrawTogglesCoveredPixels : drawState.idx.toNat + (1#4).toNat ≤ 0x1000 ∧
    (∃ px < 64, ∃ py < 32, SpriteCovers (drawState.setFb oneSet) 0 1 1 px py ∧ PixelSet (drawState.setFb oneSet) px py) ∧
    (∀ px < 64, ∀ py < 32, SpriteCovers drawState 0 1 1 px py → ¬ PixelSet drawState px py) := by
  refine ⟨by decide, ⟨0, by decide, 0, by decide, ⟨0, by decide, 0, by decide, by decide, by decide, by decide⟩, by unfold PixelSet; decide⟩, ?_⟩
  intro px _ py _ _
  simp [drawState_blank]
/-- The form with no rows, at an address no byte of memory has. -/
theorem witness_DrawTogglesCoveredPixels_no_rows : ((0#4) = 0 ∨ (drawState.setIdx 0xFFFF).idx.toNat + (0#4).toNat ≤ 0x1000) ∧
    ¬ (drawState.setIdx 0xFFFF).idx.toNat + (0#4).toNat ≤ 0x1000 ∧
    ∀ px < 64, ∀ py < 32, SpriteCovers (drawState.setIdx 0xFFFF) 0 1 0 px py → ¬ PixelSet (drawState.setIdx 0xFFFF) px py := by
  refine ⟨.inl rfl, by decide, ?_⟩
  rintro px - py - ⟨r, hr, -⟩
  exact absurd hr (Nat.not_lt_zero r)
theorem witness_DrawTwiceRestoresScreen : ∃ t, (0 : Reg) ≠ 15 ∧ (1 : Reg) ≠ 15 ∧
    drawState.idx.toNat + (1#4).toNat ≤ 0x1000 ∧ exec (.drw 0 1 1) drawState = .next t ∧ (∀ px < 64, ∀ py < 32, ¬ PixelSet drawState px py) ∧
    ∃ r < (1#4).toNat, ∃ c < 8, spriteBit drawState r c = true := by
  obtain ⟨t, h⟩ := nextIs_next (o := exec (.drw 0 1 1) drawState) (by decide)
  exact ⟨t, by decide, by decide, by decide, h, fun px _ py _ => drawState_blank px py, 0, by decide, 0, by decide, by decide⟩
theorem witness_DrawTwiceRestoresScreen_clear_bits : ∃ t, exec (.drw 0 1 1) (base.setIdx 0x300) = .next t ∧
    (∀ px < 64, ∀ py < 32, ¬ PixelSet (base.setIdx 0x300) px py) ∧
    ∀ r < (1#4).toNat, ∀ c < 8, spriteBit (base.setIdx 0x300) r c = false := by
  obtain ⟨t, h⟩ := nextIs_next (o := exec (.drw 0 1 1) (base.setIdx 0x300)) (by decide)
  exact ⟨t, h, by simp [PixelSet, pixelAt, base, State.reset, State.setIdx], by decide⟩
theorem witness_WaitForKey : (∀ k < 16, base.keys.getLsbD k = false) ∧
    (base.setKeys 0x8000).keys.getLsbD 15 = true ∧ (∀ j < 15, (base.setKeys 0x8000).keys.getLsbD j = false) ∧
    (base.setKeys 0x0221).keys.getLsbD 0 = true := by decide
theorem witness_SetKeysReplacesKeys : ∃ t, step base = .next t := nextIs_next (by decide)
theorem witness_LoadRomCopiesOrRejects : 0 < ([0x60] : List Byte).length ∧ ([0x60] : List Byte).length ≤ 3584 ∧
    (List.replicate 3584 (0 : Byte)).length ≤ 3584 ∧ 3584 < (List.replicate 3585 (0 : Byte)).length ∧
    ([] : List Byte).length = 0 :=
  ⟨by decide, by decide, by rw [List.length_replicate], by rw [List.length_replicate]; decide, rfl⟩
theorem witness_OnlyResetLeavesHalted : (base.enterFault 0 ⟨.fetchOutOfRange, 0⟩).fault.halted = true ∧
    HostOp.tickTimers ≠ .reset ∧ HostOp.step 0 ≠ .reset := by decide
theorem witness_HostStepHandsOverRand : (withCells base [(0x200, 0xC3), (0x201, 0x0F)]).fault.halted = false ∧
    (withCells base [(0x200, 0xC3), (0x201, 0x0F)]).pc.toNat ≤ 0xFFE ∧
    decode (wordAtPc (withCells base [(0x200, 0xC3), (0x201, 0x0F)])) = .ok (.rndVxKk 3 0x0F) := by decide
theorem witness_StepKeepsInvariant : ∃ t, base.Inv ∧ step base = .next t := by
  obtain ⟨t, h⟩ := nextIs_next (o := step base) (by decide)
  exact ⟨t, base_inv, h⟩
theorem witness_SchedulesKeepInvariant : base.Inv := base_inv
theorem witness_OnlyTheseFaultsArise : base.fault.halted = false ∧ ∃ t, exec .ret base = .next t ∧ t.fault.halted = true :=
  ⟨by decide, base.enterFault 0x00EE ⟨.stackUnderflow, 0⟩, rfl, rfl⟩
theorem witness_FaultsArePrecise : base.fault.halted = false ∧
    ∃ t, step (base.setPc 0xFFF) = .next t ∧ t.fault.halted = true :=
  ⟨by decide, (base.setPc 0xFFF).enterFault 0 ⟨.fetchOutOfRange, 0x1000⟩, rfl, rfl⟩
theorem witness_WhoWritesEachPart : exec (.ldStVx 2) (base.setReg 2 9) = .next ((base.setReg 2 9).advancePc.setSt 9) ∧
    ¬ Part.soundTimer.Same (base.setReg 2 9) ((base.setReg 2 9).advancePc.setSt 9) :=
  ⟨rfl, by simp [Part.Same]; decide⟩
theorem witness_VfAsFlag : exec (.ldVxKk 15 7) base = .next (base.advancePc.setReg 15 7) ∧
    (base.advancePc.setReg 15 7).reg 15 ≠ base.reg 15 := ⟨rfl, by decide⟩
theorem witness_InputsReadOnlyByTheirInstructions : exec (.sys 0) base = .next base.advancePc ∧
    (∀ x kk, Instr.sys 0 ≠ .rndVxKk x kk) ∧
    (∀ x, Instr.sys 0 ≠ .skp x ∧ Instr.sys 0 ≠ .sknp x ∧ Instr.sys 0 ≠ .ldVxK x) ∧ (∀ x, Instr.sys 0 ≠ .ldStVx x) :=
  ⟨rfl, by simp, by simp, by simp⟩
theorem witness_TickCommutesWithOtherInstructions :
    (∀ x, Instr.sys 0 ≠ .ldVxDt x ∧ Instr.sys 0 ≠ .ldDtVx x ∧ Instr.sys 0 ≠ .ldStVx x) ∧
    exec (.sys 0) base = .next base.advancePc := ⟨by simp, rfl⟩

end Sys2Proof.Tests
end

section
/-! PROOFS. The decoder against the opcode table (spec/30_encoding.md R340): what a decoded instruction says of its word, and
what lying in a row says of a word's fields. -/

namespace Sys2Proof

/-! What decodes is encoded by the word it came from, group by group (R330). -/

theorem encode_decodeGroup0 {w : Word} (hg : fieldG w = 0x0) : encode (decodeGroup0 w) = w := by
  fun_cases decodeGroup0 w with
  | case1 hcls => exact hcls.symm
  | case2 _ hret => exact hret.symm
  | case3 => exact eq_formNnn hg

theorem encode_of_decodeGroup8 {w : Word} {i : Instr} (hg : fieldG w = 0x8) (h : decodeGroup8 w = .ok i) :
    encode i = w := by
  revert h
  fun_cases decodeGroup8 w <;> rintro ⟨⟩ <;> exact eq_formXyn hg ‹_›

theorem encode_of_decodeGroupE {w : Word} {i : Instr} (hg : fieldG w = 0xE) (h : decodeGroupE w = .ok i) :
    encode i = w := by
  revert h
  fun_cases decodeGroupE w <;> rintro ⟨⟩ <;> exact eq_formXkk hg ‹_›

theorem encode_of_decodeGroupF {w : Word} {i : Instr} (hg : fieldG w = 0xF) (h : decodeGroupF w = .ok i) :
    encode i = w := by
  revert h
  fun_cases decodeGroupF w <;> rintro ⟨⟩ <;> exact eq_formXkk hg ‹_›

/-- The decoder's last branch tests no nibble: it is group F because nothing else is left. -/
theorem nibble_cases : ∀ g : BitVec 4, g = 0x0 ∨ g = 0x1 ∨ g = 0x2 ∨ g = 0x3 ∨ g = 0x4 ∨ g = 0x5 ∨ g = 0x6 ∨ g = 0x7 ∨
    g = 0x8 ∨ g = 0x9 ∨ g = 0xA ∨ g = 0xB ∨ g = 0xC ∨ g = 0xD ∨ g = 0xE ∨ g = 0xF := by decide

/-- The cases are the decoder's branches, numbered in its order, and gathered here by the form of their words (R302). -/
theorem encode_of_decode {w : Word} {i : Instr} (h : decode w = .ok i) : encode i = w := by
  revert h
  fun_cases decode w
  case case1 hg => rintro ⟨⟩; exact encode_decodeGroup0 hg
  case case2 | case3 | case13 | case14 => rintro ⟨⟩; exact eq_formNnn ‹_›
  case case4 | case5 | case8 | case9 | case15 => rintro ⟨⟩; exact eq_formXkk ‹_› rfl
  case case6 | case11 => rintro ⟨⟩; exact eq_formXyn ‹_› ‹_›
  case case7 | case12 => rintro ⟨⟩
  case case16 => rintro ⟨⟩; exact eq_formXyn ‹_› rfl
  case case10 hg => exact encode_of_decodeGroup8 hg
  case case17 hg => exact encode_of_decodeGroupE hg
  case case18 =>
    have hg : fieldG w = 0xF := by simpa only [*, false_or] using nibble_cases (fieldG w)
    exact encode_of_decodeGroupF hg

open Laws.RowOfTable in
/-- R340, for the word of an instruction: it lies in the instruction's row. -/
theorem encode_and_mask (i : Instr) : encode i &&& i.row.mask = i.row.bits :=
  match i with
  | .cls => cls
  | .ret => ret
  | .sys nnn => sys nnn
  | .jp nnn => jp nnn
  | .call nnn => call nnn
  | .seVxKk x kk => seVxKk x kk
  | .sneVxKk x kk => sneVxKk x kk
  | .seVxVy x y => seVxVy x y
  | .ldVxKk x kk => ldVxKk x kk
  | .addVxKk x kk => addVxKk x kk
  | .ldVxVy x y => ldVxVy x y
  | .orVxVy x y => orVxVy x y
  | .andVxVy x y => andVxVy x y
  | .xorVxVy x y => xorVxVy x y
  | .addVxVy x y => addVxVy x y
  | .subVxVy x y => subVxVy x y
  | .shrVxVy x y => shrVxVy x y
  | .subnVxVy x y => subnVxVy x y
  | .shlVxVy x y => shlVxVy x y
  | .sneVxVy x y => sneVxVy x y
  | .ldINnn nnn => ldINnn nnn
  | .jpV0Nnn nnn => jpV0Nnn nnn
  | .rndVxKk x kk => rndVxKk x kk
  | .drw x y n => drw x y n
  | .skp x => skp x
  | .sknp x => sknp x
  | .ldVxDt x => ldVxDt x
  | .ldVxK x => ldVxK x
  | .ldDtVx x => ldDtVx x
  | .ldStVx x => ldStVx x
  | .addIVx x => addIVx x
  | .ldFVx x => ldFVx x
  | .ldBVx x => ldBVx x
  | .ldMemVx x => ldMemVx x
  | .ldVxMem x => ldVxMem x

/-! A field that a row's mask keeps whole is the field of the row's match, written as bits so that simp computes it. -/

theorem extract_of_and {w m b : Word} {k n : Nat} (h : w &&& m = b) (hm : m.extractLsb' k n = BitVec.allOnes n) :
    w.extractLsb' k n = b.extractLsb' k n := by
  rw [← h, BitVec.extractLsb'_and, hm, BitVec.and_allOnes]

theorem fieldG_of_and {w m b : Word} (h : w &&& m = b) (hm : fieldG m = 0xF) : fieldG w = b.extractLsb' 12 4 :=
  extract_of_and h hm

theorem fieldN_of_and {w m b : Word} (h : w &&& m = b) (hm : fieldN m = 0xF) : fieldN w = b.extractLsb' 0 4 :=
  extract_of_and h hm

theorem fieldKk_of_and {w m b : Word} (h : w &&& m = b) (hm : fieldKk m = 0xFF) : fieldKk w = b.extractLsb' 0 8 :=
  extract_of_and h hm

/-- A word in a row decodes to an instruction of that row: the mask keeps every field the decoder tests on the way to it. -/
theorem decode_of_and_mask {w : Word} {i : Instr} (h : w &&& i.row.mask = i.row.bits)
    (hsys : i.row = (Instr.sys 0).row → w ≠ 0x00E0 ∧ w ≠ 0x00EE) : ∃ j, decode w = .ok j ∧ j.row = i.row := by
  cases i
  all_goals simp only [Instr.row] at h
  case cls | ret =>
    obtain rfl := BitVec.and_allOnes.symm.trans h
    exact ⟨_, rfl, rfl⟩
  case sys =>
    have hg := fieldG_of_and h rfl
    obtain ⟨hcls, hret⟩ := hsys rfl
    have hsysW : decodeGroup0 w = .sys (fieldNnn w) := (if_neg hcls).trans (if_neg hret)
    simp [decode, hg, hsysW, Instr.row]
  case jp | call | seVxKk | sneVxKk | ldVxKk | addVxKk | ldINnn | jpV0Nnn | rndVxKk | drw =>
    have hg := fieldG_of_and h rfl
    simp [decode, hg, Instr.row]
  case seVxVy | sneVxVy | ldVxVy | orVxVy | andVxVy | xorVxVy | addVxVy | subVxVy | shrVxVy | subnVxVy | shlVxVy =>
    have hg := fieldG_of_and h rfl
    have hn := fieldN_of_and h rfl
    simp [decode, decodeGroup8, hg, hn, Instr.row]
  case skp | sknp =>
    have hg := fieldG_of_and h rfl
    have hkk := fieldKk_of_and h rfl
    simp [decode, decodeGroupE, hg, hkk, Instr.row]
  case ldVxDt | ldVxK | ldDtVx | ldStVx | addIVx | ldFVx | ldBVx | ldMemVx | ldVxMem =>
    have hg := fieldG_of_and h rfl
    have hkk := fieldKk_of_and h rfl
    simp [decode, decodeGroupF, hg, hkk, Instr.row]

/-- Settles O3: a decoded word is the word of its instruction, whose row it lies in; a row's mask keeps what the decoder
tests. -/
theorem decodeFollowsOpcodeTable : Obligations.DecodeFollowsOpcodeTable := by
  refine ⟨fun w i h => ?_, fun w i => decode_of_and_mask⟩
  rw [← encode_of_decode h]
  exact encode_and_mask i

end Sys2Proof
end

section
/-! PROOFS. Jumps and skips (spec/40_flow_stack.md): the number of a word put together from fields, the frame of a PC update,
and what a skip does to PC. -/

namespace Sys2Proof

/-! The number of a word of each form (R302). -/

theorem toNat_append_eq {m n : Nat} (a : BitVec m) (b : BitVec n) : (a ++ b).toNat = a.toNat * 2 ^ n + b.toNat := by
  rw [BitVec.toNat_append, ← Nat.shiftLeft_add_eq_or_of_lt b.isLt, Nat.shiftLeft_eq]

/-- The nibble that names a register (R303). -/
theorem toNat_nibble (x : Reg) : (BitVec.ofFin (w := 4) x).toNat = x.val := rfl

@[simp] theorem toNat_formNnn (g : BitVec 4) (nnn : BitVec 12) :
    (formNnn g nnn).toNat = 0x1000 * g.toNat + nnn.toNat := by
  rw [formNnn, toNat_append_eq]
  omega

@[simp] theorem toNat_formXkk (g : BitVec 4) (x : Reg) (kk : Byte) :
    (formXkk g x kk).toNat = 0x1000 * g.toNat + 0x100 * x.val + kk.toNat := by
  rw [formXkk, toNat_append_eq, toNat_append_eq, toNat_nibble x]
  omega

@[simp] theorem toNat_formXyn (g : BitVec 4) (x y : Reg) (n : BitVec 4) :
    (formXyn g x y n).toNat = 0x1000 * g.toNat + 0x100 * x.val + 0x10 * y.val + n.toNat := by
  rw [formXyn, toNat_append_eq, toNat_append_eq, toNat_append_eq, toNat_nibble x, toNat_nibble y]
  omega

end Sys2Proof

namespace Sys2Proof.Machine

/-- An instruction's word is the number its encoding has, once the decoder reads that encoding back. -/
theorem encodes_of_decode_encode {i : Instr} {word : Nat} (hword : (encode i).toNat = word)
    (hdecode : decode (encode i) = .ok i) : Encodes i word := by
  subst hword
  rw [Encodes, BitVec.ofNat_toNat, BitVec.setWidth_eq]
  exact ⟨rfl, hdecode⟩

theorem encodes_jp (nnn : BitVec 12) : Encodes (.jp nnn) (0x1000 + nnn.toNat) :=
  encodes_of_decode_encode (toNat_formNnn _ _) (by simp [encode, decode])

theorem encodes_seVxKk (x : Reg) (kk : Byte) : Encodes (.seVxKk x kk) (0x3000 + 0x100 * x.val + kk.toNat) :=
  encodes_of_decode_encode (toNat_formXkk _ _ _) (by simp [encode, decode])

theorem encodes_sneVxKk (x : Reg) (kk : Byte) : Encodes (.sneVxKk x kk) (0x4000 + 0x100 * x.val + kk.toNat) :=
  encodes_of_decode_encode (toNat_formXkk _ _ _) (by simp [encode, decode])

theorem encodes_seVxVy (x y : Reg) : Encodes (.seVxVy x y) (0x5000 + 0x100 * x.val + 0x10 * y.val) :=
  encodes_of_decode_encode (toNat_formXyn _ _ _ _) (by simp [encode, decode])

theorem encodes_sneVxVy (x y : Reg) : Encodes (.sneVxVy x y) (0x9000 + 0x100 * x.val + 0x10 * y.val) :=
  encodes_of_decode_encode (toNat_formXyn _ _ _ _) (by simp [encode, decode])

/-- The frame of every instruction that writes PC alone. -/
theorem unchangedBut_setPc (s : State) (target : Word) : UnchangedBut [.pc] [] s (s.setPc target) := by
  refine ⟨fun r _ => reg_setPc s target r, fun p hp => ?_⟩
  cases p <;> simp [Part.Same] at hp ⊢

/-- R400 after R320's advance: a taken skip leaves PC four bytes on, an untaken one two. -/
theorem advancePc_skipIf (s : State) (taken : Bool) :
    s.advancePc.skipIf taken = s.setPc (s.pc + if taken then 4 else 2) := by
  cases taken
  · rfl
  · exact congrArg s.setPc (BitVec.add_assoc s.pc 2 2)

/-- What an instruction that only skips does, whatever it tests. -/
theorem exec_skips {i : Instr} {s : State} {taken : Bool} (h : exec i s = .next (s.advancePc.skipIf taken)) :
    ∃ t, exec i s = .next t ∧ t.pc = s.pc + (if taken then 4 else 2) ∧ UnchangedBut [.pc] [] s t :=
  ⟨_, h.trans (congrArg Host.Outcome.next (advancePc_skipIf s taken)), rfl, unchangedBut_setPc s _⟩

/-! The two senses of a comparison: skip if equal, and skip if different. -/

theorem exec_skips_eq {i : Instr} {s : State} {a b : Byte} (h : exec i s = .next (s.advancePc.skipIf (a == b))) :
    ∃ t, exec i s = .next t ∧ t.pc = s.pc + (if a = b then 4 else 2) ∧ UnchangedBut [.pc] [] s t := by
  simpa only [beq_iff_eq] using exec_skips h

theorem exec_skips_ne {i : Instr} {s : State} {a b : Byte} (h : exec i s = .next (s.advancePc.skipIf (a != b))) :
    ∃ t, exec i s = .next t ∧ t.pc = s.pc + (if a = b then 2 else 4) ∧ UnchangedBut [.pc] [] s t := by
  simpa only [bne_iff_ne, ne_eq, ite_not] using exec_skips h

/-- Settles O30: JP overwrites the advanced PC with its operand, zero-extended. -/
theorem jumpAbsolute : Obligations.JumpAbsolute := by
  intro nnn s
  have hpc : (addrOperand nnn).toNat = nnn.toNat := BitVec.toNat_setWidth_of_le (by decide)
  exact ⟨encodes_jp nnn, s.setPc (addrOperand nnn), rfl, hpc, unchangedBut_setPc s (addrOperand nnn)⟩

/-- Settles O32: each of the four is a skip on one comparison, for equality or for difference. -/
theorem compareSkips : Obligations.CompareSkips := fun x y kk _ =>
  ⟨encodes_seVxKk x kk, encodes_sneVxKk x kk, encodes_seVxVy x y, encodes_sneVxVy x y,
    exec_skips_eq rfl, exec_skips_ne rfl, exec_skips_eq rfl, exec_skips_ne rfl⟩

end Sys2Proof.Machine
end

section
/-! PROOFS. The ALU (spec/41_alu.md): the words of group 8, the frame of a register write, and what the flags and the
difference are as numbers. -/

namespace Sys2Proof.Machine

/-! Words. -/

/-- Whatever a word decodes to is encoded by that word's number. -/
theorem encodes_of_decode {w : Word} {i : Instr} (h : decode w = .ok i) : Encodes i w.toNat := by
  obtain rfl := encode_of_decode h
  exact encodes_of_decode_encode rfl h

theorem encodes_ldVxKk (x : Reg) (kk : Byte) : Encodes (.ldVxKk x kk) (0x6000 + 0x100 * x.val + kk.toNat) :=
  encodes_of_decode_encode (toNat_formXkk _ _ _) (by simp [encode, decode])

theorem encodes_addVxKk (x : Reg) (kk : Byte) : Encodes (.addVxKk x kk) (0x7000 + 0x100 * x.val + kk.toNat) :=
  encodes_of_decode_encode (toNat_formXkk _ _ _) (by simp [encode, decode])

/-- Group 8 is told apart by the low nibble alone (R330). -/
theorem encodes_of_decodeGroup8 (x y : Reg) (n : BitVec 4) {i : Instr} (h : decodeGroup8 (formXyn 0x8 x y n) = .ok i) :
    Encodes i (0x8000 + n.toNat + 0x100 * x.val + 0x10 * y.val) := by
  have hdecode : decode (formXyn 0x8 x y n) = .ok i := by simpa [decode] using h
  have hnum : (formXyn 0x8 x y n).toNat = 0x8000 + n.toNat + 0x100 * x.val + 0x10 * y.val := by
    have hgroup : (0x8 : BitVec 4).toNat = 8 := rfl
    rw [toNat_formXyn, hgroup]
    omega
  exact hnum ▸ encodes_of_decode hdecode

/-! The frame of a register write: it adds the register it names to what may have changed, and no part. -/

theorem unchangedBut_advancePc (s : State) (regs : List Reg) : UnchangedBut [.pc] regs s s.advancePc :=
  ⟨fun r _ => reg_advancePc s r, (unchangedBut_setPc s (s.pc + 2)).2⟩

theorem UnchangedBut.setReg {parts : List Part} {regs : List Reg} {s t : State} {x : Reg} (b : Byte)
    (h : UnchangedBut parts regs s t) (hx : x ∈ regs) : UnchangedBut parts regs s (t.setReg x b) := by
  obtain ⟨hregs, hparts⟩ := h
  constructor
  · intro r hr
    have hne : x ≠ r := fun e => hr (e ▸ hx)
    exact (reg_setReg_other t b hne).trans (hregs r hr)
  · intro p hp
    cases p <;> exact hparts _ hp

/-- The frame of every instruction that writes Vx and no flag. -/
theorem unchangedBut_advancePc_setReg (s : State) (x : Reg) (b : Byte) :
    UnchangedBut [.pc] [x] s (s.advancePc.setReg x b) :=
  (unchangedBut_advancePc s [x]).setReg b (by simp)

/-- The frame of every instruction that writes Vx and a flag. -/
theorem unchangedBut_advancePc_setRegAndFlag (s : State) (x : Reg) (b f : Byte) :
    UnchangedBut [.pc] [x, 15] s (s.advancePc.setRegAndFlag x b f) :=
  ((unchangedBut_advancePc s [x, 15]).setReg b (by simp)).setReg f (by simp)

/-! The two registers of a write with a flag. -/

theorem reg_setRegAndFlag_dest (s : State) {x : Reg} (b f : Byte) (hx : x ≠ 15) :
    (s.setRegAndFlag x b f).reg x = b := by
  simp [hx.symm]

theorem reg_setRegAndFlag_flag (s : State) (x : Reg) (b f : Byte) : (s.setRegAndFlag x b f).reg 15 = f := by
  simp

/-! Flags and the difference as numbers. -/

theorem toNat_flagByte (p : Prop) [Decidable p] : (flagByte (decide p)).toNat = if p then 1 else 0 := by
  by_cases h : p <;> simp [flagByte, h]

/-- A flag that is a bit of a value is that bit's number. -/
theorem toNat_flagByte_getLsbD (a : Byte) (k : Nat) : (flagByte (a.getLsbD k)).toNat = a.toNat / 2 ^ k % 2 := by
  rw [BitVec.getLsbD, Nat.testBit_eq_decide_div_mod_eq, toNat_flagByte]
  split <;> omega

theorem toNat_lowBitFlag (a : Byte) : (lowBitFlag a).toNat = a.toNat % 2 := by
  rw [lowBitFlag, toNat_flagByte_getLsbD, Nat.pow_zero, Nat.div_one]

theorem toNat_highBitFlag (a : Byte) : (highBitFlag a).toNat = a.toNat / 128 := by
  have hbound : a.toNat / 128 < 2 := by omega
  exact (toNat_flagByte_getLsbD a 7).trans (Nat.mod_eq_of_lt hbound)

theorem toNat_sub_eq_emod (a b : Byte) : ((a - b).toNat : Int) = ((a.toNat : Int) - b.toNat) % 256 := by
  rw [BitVec.toNat_sub]
  omega

/-! The obligations. -/

/-- Settles O12: the one register written is Vx. -/
theorem loadImmediate : Obligations.LoadImmediate := fun x kk s =>
  ⟨encodes_ldVxKk x kk, _, rfl, reg_setReg_same _ _ _, rfl, unchangedBut_advancePc_setReg s x kk⟩

/-- Settles O13: the one register written is Vx, with what Vy held. -/
theorem copyRegister : Obligations.CopyRegister := fun x y s =>
  ⟨encodes_of_decodeGroup8 x y 0x0 (by simp [decodeGroup8]), _, rfl, reg_setReg_same _ _ _, rfl,
    unchangedBut_advancePc_setReg s x _⟩

/-- Settles O14: the sum of bytes is the sum mod 256, and VF is in the frame. -/
theorem addImmediateWraps : Obligations.AddImmediateWraps := by
  intro x kk s
  refine ⟨encodes_addVxKk x kk, _, rfl, ?_, rfl, unchangedBut_advancePc_setReg s x _⟩
  rw [reg_setReg_same, BitVec.toNat_add]

/-- Settles O15: the operations on bytes act bit by bit, and VF is in the frame. -/
theorem bitwiseOperations : Obligations.BitwiseOperations := by
  intro x y s
  refine ⟨encodes_of_decodeGroup8 x y 0x1 (by simp [decodeGroup8]),
    encodes_of_decodeGroup8 x y 0x2 (by simp [decodeGroup8]),
    encodes_of_decodeGroup8 x y 0x3 (by simp [decodeGroup8]),
    ⟨_, rfl, fun k _ => ?_, rfl, unchangedBut_advancePc_setReg s x _⟩,
    ⟨_, rfl, fun k _ => ?_, rfl, unchangedBut_advancePc_setReg s x _⟩,
    ⟨_, rfl, fun k _ => ?_, rfl, unchangedBut_advancePc_setReg s x _⟩⟩
  · rw [reg_setReg_same, BitVec.getLsbD_or]
  · rw [reg_setReg_same, BitVec.getLsbD_and]
  · rw [reg_setReg_same, BitVec.getLsbD_xor]

/-- Settles O16: sum and carry are of the values before, and the carry is the last write to VF. -/
theorem addSetsCarry : Obligations.AddSetsCarry := by
  intro x y s
  refine ⟨encodes_of_decodeGroup8 x y 0x4 (by simp [decodeGroup8]), _, rfl, fun hx => ?_, ?_, rfl,
    unchangedBut_advancePc_setRegAndFlag s x _ _⟩
  · rw [reg_setRegAndFlag_dest _ _ _ hx, BitVec.toNat_add]
  · rw [reg_setRegAndFlag_flag, carryFlag, toNat_flagByte]

/-- What a subtraction does, whichever operand is the minuend (R463, R465). -/
theorem exec_subtracts {i : Instr} {s : State} {x : Reg} {a b : Byte}
    (h : exec i s = .next (s.advancePc.setRegAndFlag x (a - b) (greaterFlag a b))) :
    ∃ t, exec i s = .next t ∧ (x ≠ 15 → ((t.reg x).toNat : Int) = ((a.toNat : Int) - b.toNat) % 256) ∧
      (t.reg 15).toNat = (if a.toNat > b.toNat then 1 else 0) ∧ t.pc = s.pc + 2 ∧ UnchangedBut [.pc] [x, 15] s t := by
  refine ⟨_, h, fun hx => ?_, ?_, rfl, unchangedBut_advancePc_setRegAndFlag s x _ _⟩
  · rw [reg_setRegAndFlag_dest _ _ _ hx, toNat_sub_eq_emod]
  · rw [reg_setRegAndFlag_flag, greaterFlag, toNat_flagByte]

/-- Settles O17: SUB and SUBN are one subtraction with the operands exchanged. -/
theorem subtractionsSetGreaterFlag : Obligations.SubtractionsSetGreaterFlag := fun x y _ =>
  ⟨encodes_of_decodeGroup8 x y 0x5 (by simp [decodeGroup8]), encodes_of_decodeGroup8 x y 0x7 (by simp [decodeGroup8]),
    exec_subtracts rfl, exec_subtracts rfl⟩

/-- Settles O18: the state after a shift is built from Vx alone, so it is the same for every y. -/
theorem shiftsSetShiftedOutBit : Obligations.ShiftsSetShiftedOutBit := by
  intro x y s
  refine ⟨encodes_of_decodeGroup8 x y 0x6 (by simp [decodeGroup8]),
    encodes_of_decodeGroup8 x y 0xE (by simp [decodeGroup8]),
    ⟨_, rfl, fun hx => ?_, ?_, rfl, unchangedBut_advancePc_setRegAndFlag s x _ _, fun _ => rfl⟩,
    ⟨_, rfl, fun hx => ?_, ?_, rfl, unchangedBut_advancePc_setRegAndFlag s x _ _, fun _ => rfl⟩⟩
  · rw [reg_setRegAndFlag_dest _ _ _ hx, BitVec.toNat_ushiftRight, Nat.shiftRight_eq_div_pow, Nat.pow_one]
  · rw [reg_setRegAndFlag_flag, toNat_lowBitFlag]
  · rw [reg_setRegAndFlag_dest _ _ _ hx, BitVec.toNat_shiftLeft, Nat.shiftLeft_eq, Nat.pow_one]
  · rw [reg_setRegAndFlag_flag, toNat_highBitFlag]

end Sys2Proof.Machine
end

section
/-! PROOFS. The index register (spec/42_index_memory.md): the word of LD I, the address operand as a number, and the frame
of a write to I. -/

namespace Sys2Proof.Machine

theorem encodes_ldINnn (nnn : BitVec 12) : Encodes (.ldINnn nnn) (0xA000 + nnn.toNat) :=
  encodes_of_decode_encode (toNat_formNnn _ _) (by simp [encode, decode])

/-- The upper four bits of an address operand are 0 (R501). -/
theorem toNat_addrOperand (nnn : BitVec 12) : (addrOperand nnn).toNat = nnn.toNat :=
  BitVec.toNat_setWidth_of_le (by decide)

/-- A frame may name more parts than changed. -/
theorem UnchangedBut.mono_parts {parts parts' : List Part} {regs : List Reg} {s t : State}
    (h : UnchangedBut parts regs s t) (hsub : parts ⊆ parts') : UnchangedBut parts' regs s t := by
  obtain ⟨hregs, hparts⟩ := h
  exact ⟨hregs, fun p hp => hparts p fun hmem => hp (hsub hmem)⟩

/-- A write to I keeps every frame that names I. -/
theorem UnchangedBut.setIdx {parts : List Part} {regs : List Reg} {s t : State} (a : Word)
    (h : UnchangedBut parts regs s t) (hidx : .index ∈ parts) : UnchangedBut parts regs s (t.setIdx a) := by
  obtain ⟨hregs, hparts⟩ := h
  refine ⟨fun r hr => (reg_setIdx t a r).trans (hregs r hr), fun p hp => ?_⟩
  cases p
  case index => exact absurd hidx hp
  all_goals exact hparts _ hp

/-- The frame of every instruction that writes I alone. -/
theorem unchangedBut_advancePc_setIdx (s : State) (a : Word) :
    UnchangedBut [.pc, .index] [] s (s.advancePc.setIdx a) :=
  ((unchangedBut_advancePc s []).mono_parts (by simp)).setIdx a (by simp)

/-- Settles O20: the one write besides PC is to I, and what it writes is the operand, zero-extended. -/
theorem loadIndex : Obligations.LoadIndex := fun nnn s =>
  ⟨encodes_ldINnn nnn, _, rfl, toNat_addrOperand nnn, rfl, unchangedBut_advancePc_setIdx s _⟩

end Sys2Proof.Machine
end

section
/-! PROOFS. Clearing the screen (spec/43_display.md R555): the word of CLS, the frame of a write to FB, and the blank
screen. -/

namespace Sys2Proof.Machine

theorem encodes_cls : Encodes .cls 0x00E0 :=
  encodes_of_decode_encode rfl rfl

/-- A write to FB keeps every frame that names the screen. -/
theorem UnchangedBut.setFb {parts : List Part} {regs : List Reg} {s t : State} (q : Pixels)
    (h : UnchangedBut parts regs s t) (hscreen : .screen ∈ parts) : UnchangedBut parts regs s (t.setFb q) := by
  obtain ⟨hregs, hparts⟩ := h
  refine ⟨fun r hr => (reg_setFb t q r).trans (hregs r hr), fun p hp => ?_⟩
  cases p
  case screen => exact absurd hscreen hp
  all_goals exact hparts _ hp

/-- The frame of CLS: it writes FB and advances PC. -/
theorem unchangedBut_advancePc_setFb (s : State) (q : Pixels) :
    UnchangedBut [.pc, .screen] [] s (s.advancePc.setFb q) :=
  ((unchangedBut_advancePc s []).mono_parts (by simp)).setFb q (by simp)

/-- No pixel is set on the blank screen (R555). -/
theorem not_pixelSet_setFb_blank (s : State) (px py : Nat) : ¬ PixelSet (s.setFb blankScreen) px py := by
  rw [PixelSet, setFb_fb, pixelAt_blank]
  exact Bool.false_ne_true

/-- Settles O36: the one write besides PC is to FB, and what it writes is the blank screen. -/
theorem clearScreen : Obligations.ClearScreen := fun s =>
  ⟨encodes_cls, _, rfl, fun px _ py _ => not_pixelSet_setFb_blank _ px py, rfl, unchangedBut_advancePc_setFb s _⟩

end Sys2Proof.Machine
end

section
/-! PROOFS. The timer instructions (spec/44_timers_keys.md R604 to R606): the words of group F, frames one after another,
and the frames of the writes to DT and ST. -/

namespace Sys2Proof.Machine

/-- Group F is told apart by the low byte (R330). -/
theorem encodes_of_decodeGroupF (x : Reg) (kk : Byte) {i : Instr} (h : decodeGroupF (formXkk 0xF x kk) = .ok i) :
    Encodes i (0xF000 + kk.toNat + 0x100 * x.val) := by
  have hdecode : decode (formXkk 0xF x kk) = .ok i := by simpa [decode] using h
  have hnum : (formXkk 0xF x kk).toNat = 0xF000 + kk.toNat + 0x100 * x.val := by
    have hgroup : (0xF : BitVec 4).toNat = 15 := rfl
    rw [toNat_formXkk, hgroup]
    omega
  exact hnum ▸ encodes_of_decode hdecode

/-! Frames one after another: what changed over both is named by one of them. -/

theorem Part.Same.trans {p : Part} {s t u : State} (hst : p.Same s t) (htu : p.Same t u) : p.Same s u := by
  cases p
  case memory => exact fun a => (htu a).trans (hst a)
  case stack | random => exact ⟨htu.1.trans hst.1, htu.2.trans hst.2⟩
  all_goals exact Eq.trans htu hst

theorem UnchangedBut.trans {parts parts' : List Part} {regs regs' : List Reg} {s t u : State}
    (hst : UnchangedBut parts regs s t) (htu : UnchangedBut parts' regs' t u) :
    UnchangedBut (parts ++ parts') (regs ++ regs') s u := by
  obtain ⟨hregs, hparts⟩ := hst
  obtain ⟨hregs', hparts'⟩ := htu
  constructor
  · intro r hr
    rw [List.mem_append, not_or] at hr
    exact (hregs' r hr.2).trans (hregs r hr.1)
  · intro p hp
    rw [List.mem_append, not_or] at hp
    exact (hparts p hp.1).trans (hparts' p hp.2)

theorem unchangedBut_setDt (s : State) (b : Byte) : UnchangedBut [.delayTimer] [] s (s.setDt b) := by
  refine ⟨fun r _ => reg_setDt s b r, fun p hp => ?_⟩
  cases p <;> simp [Part.Same] at hp ⊢

theorem unchangedBut_setSt (s : State) (b : Byte) : UnchangedBut [.soundTimer] [] s (s.setSt b) := by
  refine ⟨fun r _ => reg_setSt s b r, fun p hp => ?_⟩
  cases p <;> simp [Part.Same] at hp ⊢

/-- Settles O41: besides PC each of the three writes one place, Vx, DT or ST, and its frame is the advance's and then that
write's. -/
theorem timerInstructions : Obligations.TimerInstructions := fun x s =>
  ⟨encodes_of_decodeGroupF x 0x07 (by simp [decodeGroupF]), encodes_of_decodeGroupF x 0x15 (by simp [decodeGroupF]),
    encodes_of_decodeGroupF x 0x18 (by simp [decodeGroupF]),
    ⟨_, rfl, reg_setReg_same _ _ _, rfl, unchangedBut_advancePc_setReg s x _⟩,
    ⟨_, rfl, setDt_dt _ _, rfl, (unchangedBut_advancePc s []).trans (unchangedBut_setDt _ _)⟩,
    ⟨_, rfl, setSt_st _ _, rfl, (unchangedBut_advancePc s []).trans (unchangedBut_setSt _ _)⟩⟩

end Sys2Proof.Machine
end

section
/-! PROOFS. The operations outside a Step (spec/60_exceptions.md R730, R735, R740): the frames of TickTimers and SetKeys, and
that no instruction and no other end of a Step writes KEY. -/

namespace Sys2Proof.Machine

/-! TickTimers (R730). -/

/-- Subtraction of numbers stops at 0, as the decay does. -/
theorem toNat_tickTimer (b : Byte) : (tickTimer b).toNat = b.toNat - 1 := by
  unfold tickTimer
  split
  · exact BitVec.toNat_sub_of_le (show (1 : Byte) ≤ b from ‹b.toNat > 0›)
  · omega

/-- The tick is a write to DT and then one to ST. -/
theorem unchangedBut_tickTimers (s : State) : UnchangedBut [.delayTimer, .soundTimer] [] s s.tickTimers :=
  (unchangedBut_setDt s (tickTimer s.dt)).trans (unchangedBut_setSt _ (tickTimer s.st))

/-- Settles O42: each timer decays on its own, halted or not. -/
theorem tickTimersDecays : Obligations.TickTimersDecays := fun s =>
  ⟨s.tickTimers, rfl, toNat_tickTimer s.dt, toNat_tickTimer s.st, unchangedBut_tickTimers s⟩

/-- Settles O45: the reply is FB itself. -/
theorem readFramebufferAnswersPixels : Obligations.ReadFramebufferAnswersPixels := fun s =>
  ⟨s.fb, rfl, fun _ _ => rfl⟩

/-! KEY (R735): SetKeys writes it and no Step does. -/

theorem unchangedBut_setKeys (s : State) (k : BitVec 16) : UnchangedBut [.keys] [] s (s.setKeys k) := by
  refine ⟨fun r _ => reg_setKeys s k r, fun p hp => ?_⟩
  cases p <;> simp [Part.Same] at hp ⊢

/-! The stack operations and the wait for a key leave KEY as it is. -/

theorem keys_of_push {s t : State} {ret : Word} (h : s.push ret = .ok t) : t.keys = s.keys := by
  unfold State.push at h
  split at h <;> cases h
  rfl

theorem keys_of_popPc {s t : State} (h : s.popPc = .ok t) : t.keys = s.keys := by
  unfold State.popPc at h
  split at h <;> cases h
  rfl

@[simp] theorem waitForKey_keys (x : Reg) (s : State) : (waitForKey x s).keys = s.keys := by
  unfold waitForKey
  split <;> rfl

/-- The end of a Step leaves KEY as it is if the rule does: fault entry writes the fault record alone (R712). -/
theorem finish_keys {s : State} {op : Word} {result : Except Raise State}
    (hresult : ∀ u, result = .ok u → u.keys = s.keys) : ∃ t, s.finish op result = .next t ∧ t.keys = s.keys := by
  cases result with
  | ok u => exact ⟨u, rfl, hresult u rfl⟩
  | error r => exact ⟨_, rfl, enterFault_keys s op r⟩

/-- The same for a rule that goes on from a value `a`: a memory, the bytes read, a state. -/
theorem finish_map_keys {α : Type} {s : State} {op : Word} {result : Except Raise α} {f : α → State}
    (hf : ∀ a, result = .ok a → (f a).keys = s.keys) :
    ∃ t, s.finish op (result.map f) = .next t ∧ t.keys = s.keys := by
  refine finish_keys fun u hu => ?_
  cases result <;> cases hu
  exact hf _ rfl

/-- R735, for every instruction: the ones that may fault keep KEY through the end of the Step, the others write it nowhere. -/
theorem exec_keys (i : Instr) (s : State) : ∃ t, exec i s = .next t ∧ t.keys = s.keys := by
  cases i
  case ret => exact finish_keys fun _ hpop => (keys_of_popPc hpop).trans (advancePc_keys s)
  case call => exact finish_map_keys fun _ hpush => (keys_of_push hpush).trans (advancePc_keys s)
  case drw | ldBVx | ldMemVx | ldVxMem => exact finish_map_keys fun _ _ => rfl
  case ldVxK => exact ⟨_, rfl, waitForKey_keys _ _⟩
  all_goals exact ⟨_, rfl, rfl⟩

/-- R735, for every way a Step can go. -/
theorem step_keys {s t : State} (h : step s = .next t) : t.keys = s.keys := by
  rcases step_cases h with ⟨_, rfl⟩ | ⟨_, _, rfl⟩ | ⟨_, _, _, rfl⟩ | ⟨_, _, i, _, hexec⟩
  · rfl
  · exact enterFault_keys s _ _
  · exact advancePc_keys s
  · obtain ⟨u, hu, hkeys⟩ := exec_keys i s
    obtain rfl := Host.Outcome.next.inj (hexec.symm.trans hu)
    exact hkeys

/-- Settles O44: SetKeys puts its input in place of KEY, and no way a Step can go writes it. -/
theorem setKeysReplacesKeys : Obligations.SetKeysReplacesKeys :=
  ⟨fun k s => ⟨s.setKeys k, rfl, fun _ _ => rfl, unchangedBut_setKeys s k⟩, fun _ _ => step_keys⟩

end Sys2Proof.Machine
end

section
/-! PROOFS. The decoder both ways round (spec/30_encoding.md): decoding the word of a well-formed instruction, the
well-formedness of what decodes, and the words that decode to nothing. -/

namespace Sys2Proof

/-- Group 0 reads back every SYS operand but those of the words of CLS and RET (R341). -/
theorem decodeGroup0_sys {nnn : BitVec 12} (h : sysOperandOk nnn = true) :
    decodeGroup0 (formNnn 0x0 nnn) = .sys nnn := by
  obtain ⟨hcls, hret⟩ : nnn ≠ 0x0E0 ∧ nnn ≠ 0x0EE := by simpa [sysOperandOk] using h
  have hoperand {w : Word} (e : formNnn 0x0 nnn = w) : nnn = fieldNnn w := e ▸ (fieldNnn_formNnn _ _).symm
  have hncls : formNnn 0x0 nnn ≠ 0x00E0 := fun e => hcls (hoperand e)
  have hnret : formNnn 0x0 nnn ≠ 0x00EE := fun e => hret (hoperand e)
  rw [decodeGroup0, if_neg hncls, if_neg hnret, fieldNnn_formNnn]

/-- The fields of a word of each form are the operands it was put together from; what is left is to walk to the
branch of the decoder the fixed fields name. -/
theorem decode_encode {i : Instr} (h : i.wf = true) : decode (encode i) = .ok i := by
  cases i
  case cls | ret => rfl
  case sys nnn =>
    have hsys := decodeGroup0_sys h
    simpa [encode, decode] using hsys
  case jp | call | ldINnn | jpV0Nnn | seVxKk | sneVxKk | ldVxKk | addVxKk | rndVxKk | drw | seVxVy | sneVxVy =>
    simp [encode, decode]
  case ldVxVy | orVxVy | andVxVy | xorVxVy | addVxVy | subVxVy | shrVxVy | subnVxVy | shlVxVy =>
    simp [encode, decode, decodeGroup8]
  case skp | sknp => simp [encode, decode, decodeGroupE]
  case ldVxDt | ldVxK | ldDtVx | ldStVx | addIVx | ldFVx | ldBVx | ldMemVx | ldVxMem =>
    simp [encode, decode, decodeGroupF]

/-- A SYS instruction that is not well formed would have the word of CLS or RET, which decodes to those. -/
theorem wf_of_decode {w : Word} {i : Instr} (h : decode w = .ok i) : i.wf = true := by
  cases i
  case sys nnn =>
    obtain rfl := encode_of_decode h
    simp only [Instr.wf, sysOperandOk, Bool.and_eq_true, bne_iff_ne]
    constructor <;> rintro rfl <;> cases h
  all_goals rfl

/-! The words that decode to nothing, by the fields the decoder tests (R330, R331). -/

theorem decodeGroup8_error_iff (w : Word) :
    (∃ e, decodeGroup8 w = .error e) ↔ fieldN w ∈ [0x8, 0x9, 0xA, 0xB, 0xC, 0xD, 0xF] := by
  rcases nibble_cases (fieldN w) with h | h | h | h | h | h | h | h | h | h | h | h | h | h | h | h <;>
    simp [decodeGroup8, h]

theorem decodeGroupE_error_iff (w : Word) : (∃ e, decodeGroupE w = .error e) ↔ fieldKk w ∉ [0x9E, 0xA1] := by
  fun_cases decodeGroupE w <;> simp_all

theorem decodeGroupF_error_iff (w : Word) : (∃ e, decodeGroupF w = .error e) ↔
    fieldKk w ∉ [0x07, 0x0A, 0x15, 0x18, 0x1E, 0x29, 0x33, 0x55, 0x65] := by
  fun_cases decodeGroupF w <;> simp_all

/-- Group by group: 8, E and F have their own tests, 5 and 9 that of the low nibble, and the others decode every
word. -/
theorem decode_error_iff (w : Word) : (∃ e, decode w = .error e) ↔
    ((fieldG w = 0x5 ∨ fieldG w = 0x9) ∧ fieldN w ≠ 0x0) ∨
    (fieldG w = 0x8 ∧ fieldN w ∈ [0x8, 0x9, 0xA, 0xB, 0xC, 0xD, 0xF]) ∨
    (fieldG w = 0xE ∧ fieldKk w ∉ [0x9E, 0xA1]) ∨
    (fieldG w = 0xF ∧ fieldKk w ∉ [0x07, 0x0A, 0x15, 0x18, 0x1E, 0x29, 0x33, 0x55, 0x65]) := by
  rw [← decodeGroup8_error_iff, ← decodeGroupE_error_iff, ← decodeGroupF_error_iff]
  rcases nibble_cases (fieldG w) with h | h | h | h | h | h | h | h | h | h | h | h | h | h | h | h
  case inr.inr.inr.inr.inr.inl | inr.inr.inr.inr.inr.inr.inr.inr.inr.inl =>
    by_cases hn : fieldN w = 0#4 <;> simp [decode, h, hn]
  all_goals simp [decode, h]

/-! The same fields as quotients and remainders of the word's number. -/

theorem fieldG_eq_iff (w : Word) (g : BitVec 4) : fieldG w = g ↔ w.toNat / 0x1000 = g.toNat := by
  have hg : (fieldG w).toNat = w.toNat / 0x1000 := by
    simp [fieldG, Nat.shiftRight_eq_div_pow]
    omega
  rw [← hg, BitVec.toNat_inj]

theorem fieldN_eq_iff (w : Word) (n : BitVec 4) : fieldN w = n ↔ w.toNat % 0x10 = n.toNat := by
  have hn : (fieldN w).toNat = w.toNat % 0x10 := by simp [fieldN]
  rw [← hn, BitVec.toNat_inj]

theorem fieldKk_eq_iff (w : Word) (kk : Byte) : fieldKk w = kk ↔ w.toNat % 0x100 = kk.toNat := by
  have hkk : (fieldKk w).toNat = w.toNat % 0x100 := by simp [fieldKk]
  rw [← hkk, BitVec.toNat_inj]

/-- Settles O1: the operands are read back, and the fixed fields lead the decoder to the instruction. -/
theorem decodeOfEncode : Obligations.DecodeOfEncode := fun _ => decode_encode

/-- Settles O2: the decoder's branches put the word together again, and no branch answers SYS for the words of CLS and
RET. -/
theorem encodeOfDecode : Obligations.EncodeOfDecode := fun _ _ h => ⟨wf_of_decode h, encode_of_decode h⟩

/-- Settles O4: the decoder's tests on the fields, written as numbers. -/
theorem unknownWordsExactly : Obligations.UnknownWordsExactly := by
  intro w
  rw [decode_error_iff]
  simp [fieldG_eq_iff, fieldN_eq_iff, fieldKk_eq_iff]

/-- Settles O5: thirteen words run through the decoder. -/
theorem sampleWordsDecode : Obligations.SampleWordsDecode := by
  unfold Obligations.SampleWordsDecode
  decide

end Sys2Proof
end

section
/-! PROOFS. The six instructions that can take a fault (spec/60_exceptions.md R701): what each does where it takes none,
when it raises and what, and the state after fault entry. -/

namespace Sys2Proof.Machine

/-! Block accesses (R220, R221): in range both are total functions of memory. -/

/-- The `n` bytes at I. -/
def State.block (s : State) (n : Nat) : List Byte := (List.range n).map fun k => s.mem.read (s.idx.toNat + k)

theorem loadBytes_block {s : State} {n : Nat} (h : s.idx.toNat + n ≤ 0x1000 ∨ n = 0) :
    loadBytes s.mem s.idx.toNat n = .ok (s.block n) :=
  loadBytes_ok h

/-- A block write that stays inside memory writes the bytes one after another. -/
theorem storeBytes_ok {m : Memory} {base : Nat} {bs : List Byte} (h : base + bs.length ≤ 0x1000) :
    storeBytes m base bs = .ok (m.writeAll base bs) := by
  induction bs generalizing m base with
  | nil => rfl
  | cons b rest ih =>
    rw [List.length_cons] at h
    have hbase : ¬ base > 0xFFF := by omega
    rw [storeBytes, memWrite, if_neg hbase]
    exact ih (by omega)

/-- A block write that leaves memory raises at the first address above 0xFFF. -/
theorem storeBytes_error {m : Memory} {base : Nat} {bs : List Byte} (h0 : 0 < bs.length)
    (h : 0x1000 < base + bs.length) : storeBytes m base bs = .error ⟨.dataOutOfRange, max base 0x1000⟩ := by
  rcases storeBytes_cases m base bs with ⟨hin | hnil, -⟩ | ⟨-, -, e⟩
  · omega
  · simp [hnil] at h0
  · exact e

theorem length_decimalDigits (b : Byte) : (decimalDigits b).length = 3 := rfl

/-! What each of the six does where it takes no fault. -/

theorem exec_call_ok {s : State} (nnn : BitVec 12) (h : s.sp.val < 16) :
    exec (.call nnn) s = .next (State.setPc
      { s with stack := s.stack.set s.sp.val (s.pc + 2), sp := ⟨s.sp.val + 1, by omega⟩ } (addrOperand nnn)) := by
  rw [exec, execCall, push_ok (s := s.advancePc) _ h]
  rfl

theorem exec_ret_ok {s : State} (h : s.sp.val ≠ 0) :
    exec .ret s = .next
      (State.setPc { s with sp := ⟨s.sp.val - 1, by omega⟩ } (s.stack[s.sp.val - 1]'(by omega))) := by
  rw [exec, execRet, popPc_ok (s := s.advancePc) h]
  rfl

theorem exec_ldBVx_ok {s : State} (x : Reg) (h : s.idx.toNat + 2 ≤ 0xFFF) :
    exec (.ldBVx x) s =
      .next (s.advancePc.setMem (s.mem.writeAll s.idx.toNat (decimalDigits (s.reg x)))) := by
  rw [exec, execLdBVx, storeBytes_ok (by rw [length_decimalDigits]; omega)]
  rfl

theorem exec_ldMemVx_ok {s : State} (x : Reg) (h : s.idx.toNat + x.val ≤ 0xFFF) :
    exec (.ldMemVx x) s =
      .next ((s.advancePc.setMem (s.mem.writeAll s.idx.toNat (s.regsTo x))).setIdx
        (s.idx + BitVec.ofNat 16 (blockSize x))) := by
  rw [exec, execLdMemVx, storeBytes_ok (by rw [length_regsTo]; omega)]
  rfl

theorem exec_ldVxMem_ok {s : State} (x : Reg) (h : s.idx.toNat + x.val ≤ 0xFFF) :
    exec (.ldVxMem x) s = .next (s.advancePc.setRegsFrom0 (s.block (blockSize x))) := by
  rw [exec, execLdVxMem, loadBytes_block (.inl (by simp only [blockSize]; omega))]
  rfl

/-- The canvas DRW leaves: the sprite is the `n` bytes at I (R560). -/
def State.canvas (s : State) (x y : Reg) (n : BitVec 4) : Canvas :=
  drawSprite s.fb (s.reg x) (s.reg y) (s.block n.toNat)

theorem exec_drw_ok {s : State} (x y : Reg) {n : BitVec 4} (h : n = 0 ∨ s.idx.toNat + n.toNat ≤ 0x1000) :
    exec (.drw x y n) s = .next ((s.advancePc.setFb (s.canvas x y n).fb).setReg 15
      (collisionFlag (s.canvas x y n).coll)) := by
  have hin : s.idx.toNat + n.toNat ≤ 0x1000 ∨ n.toNat = 0 := h.symm.imp_right (congrArg BitVec.toNat)
  rw [exec, execDrw, loadBytes_block hin]
  rfl

/-! When an instruction raises, and what (R223, R401, R404). -/

/-- The instruction raises in this state. The address of a data access out of range is the first one above 0xFFF. -/
inductive Raises (s : State) : Instr → Raise → Prop where
  | call {nnn : BitVec 12} (h : s.sp.val = 16) : Raises s (.call nnn) ⟨.stackOverflow, 0⟩
  | ret (h : s.sp.val = 0) : Raises s .ret ⟨.stackUnderflow, 0⟩
  | ldBVx {x : Reg} (h : s.idx.toNat + 2 > 0xFFF) : Raises s (.ldBVx x) ⟨.dataOutOfRange, max s.idx.toNat 0x1000⟩
  | ldMemVx {x : Reg} (h : s.idx.toNat + x.val > 0xFFF) :
      Raises s (.ldMemVx x) ⟨.dataOutOfRange, max s.idx.toNat 0x1000⟩
  | ldVxMem {x : Reg} (h : s.idx.toNat + x.val > 0xFFF) :
      Raises s (.ldVxMem x) ⟨.dataOutOfRange, max s.idx.toNat 0x1000⟩
  | drw {x y : Reg} {n : BitVec 4} (hn : n ≠ 0) (h : s.idx.toNat + n.toNat > 0x1000) :
      Raises s (.drw x y n) ⟨.dataOutOfRange, max s.idx.toNat 0x1000⟩

/-- An instruction that raises ends in fault entry from the start of the Step; its word is FAULT_OPCODE (R712). -/
theorem exec_of_raises {s : State} {i : Instr} {r : Raise} (h : Raises s i r) :
    exec i s = .next (s.enterFault (encode i) r) := by
  cases h with
  | call h => rw [exec, execCall, push_error (s := s.advancePc) _ h]; rfl
  | ret h => rw [exec, execRet, popPc_error (s := s.advancePc) h]; rfl
  | ldBVx h =>
    rw [exec, execLdBVx, storeBytes_error (by simp [length_decimalDigits]) (by rw [length_decimalDigits]; omega)]; rfl
  | ldMemVx h =>
    rw [exec, execLdMemVx, storeBytes_error (by simp [length_regsTo]) (by rw [length_regsTo]; omega)]; rfl
  | ldVxMem h => rw [exec, execLdVxMem, loadBytes_error (by simp [blockSize]) (by simp only [blockSize]; omega)]; rfl
  | drw hn h =>
    rw [exec, execDrw, loadBytes_error (Nat.pos_of_ne_zero fun e => hn (BitVec.eq_of_toNat_eq e)) h]; rfl

/-! What the two conditions of CALL and DRW leave where nothing is raised. -/

theorem sp_lt_of_not_raises {s : State} {nnn : BitVec 12} (hno : ∀ r, ¬ Raises s (.call nnn) r) : s.sp.val < 16 := by
  have hsp : s.sp.val ≠ 16 := fun h => hno _ (.call h)
  omega

theorem inRange_of_not_raises {s : State} {x y : Reg} {n : BitVec 4} (hno : ∀ r, ¬ Raises s (.drw x y n) r) :
    n = 0 ∨ s.idx.toNat + n.toNat ≤ 0x1000 :=
  or_iff_not_imp_left.2 fun hn => Nat.le_of_not_gt fun h => hno _ (.drw hn h)

/-! The state after fault entry (R710). -/

theorem unchangedBut_enterFault (s : State) (op : Word) (r : Raise) :
    UnchangedBut [.faultRecord] [] s (s.enterFault op r) := by
  refine ⟨fun q _ => reg_enterFault s op r q, fun p hp => ?_⟩
  cases p <;> simp [Part.Same] at hp ⊢

theorem faulted_enterFault (s : State) (op : Word) {r : Raise} (haddr : r.addr < 2 ^ 17) :
    Faulted r.cause.code op r.addr s (s.enterFault op r) :=
  ⟨rfl, rfl, rfl, rfl, Nat.mod_eq_of_lt haddr, unchangedBut_enterFault s op r⟩

/-- The address of a raise fits the 17 bits of FAULT_ADDR (R126). -/
theorem Raises.addr_lt {s : State} {i : Instr} {r : Raise} (h : Raises s i r) : r.addr < 2 ^ 17 := by
  have hmax : max s.idx.toNat 0x1000 < 2 ^ 17 := by omega
  cases h with
  | call | ret => exact Nat.two_pow_pos 17
  | ldBVx | ldMemVx | ldVxMem | drw => exact hmax

theorem exec_faulted {s : State} {i : Instr} {r : Raise} (h : Raises s i r) :
    ∃ t, exec i s = .next t ∧ Faulted r.cause.code (encode i) r.addr s t :=
  ⟨_, exec_of_raises h, faulted_enterFault s _ h.addr_lt⟩

/-- Settles O26: each of the four raises with its first address above 0xFFF, and fault entry writes the record alone. -/
theorem memoryAccessFaults : Obligations.MemoryAccessFaults := fun _ _ _ s =>
  ⟨fun h => exec_faulted (.ldBVx h), fun h => exec_faulted (.ldMemVx h), fun h => exec_faulted (.ldVxMem h),
    fun hn h => exec_faulted (.drw (by rintro rfl; exact absurd hn (by decide)) (by omega))⟩

end Sys2Proof.Machine
end

section
/-! PROOFS. The frame of every instruction (spec/10_state.md R12): which parts of the state and which V registers it may
write where it takes no fault; with fault entry, which writes the record alone, this is everything an instruction
changes. -/

namespace Sys2Proof.Machine

/-- The parts an instruction that takes no fault may write. -/
def partsWritten (i : Instr) : List Part :=
  match i with
  | .cls | .drw _ _ _ => [.pc, .screen]
  | .ret | .call _ => [.pc, .stack]
  | .ldINnn _ | .addIVx _ | .ldFVx _ => [.pc, .index]
  | .ldBVx _ => [.pc, .memory]
  | .ldMemVx _ => [.pc, .memory, .index]
  | .rndVxKk _ _ => [.pc, .random]
  | .ldDtVx _ => [.pc, .delayTimer]
  | .ldStVx _ => [.pc, .soundTimer]
  | _ => [.pc]

/-- The V registers an instruction that takes no fault may write. -/
def regsWritten (i : Instr) : List Reg :=
  match i with
  | .ldVxKk x _ | .addVxKk x _ | .ldVxVy x _ | .orVxVy x _ | .andVxVy x _ | .xorVxVy x _ | .rndVxKk x _ | .ldVxDt x
  | .ldVxK x => [x]
  | .addVxVy x _ | .subVxVy x _ | .shrVxVy x _ | .subnVxVy x _ | .shlVxVy x _ => [x, 15]
  | .drw _ _ _ => [15]
  | .ldVxMem x => (List.finRange 16).filter (· ≤ x)
  | _ => []

theorem faultRecord_notMem_partsWritten (i : Instr) : Part.faultRecord ∉ partsWritten i := by
  cases i <;> simp [partsWritten]

/-! The frames of the updates the instructions are made of. -/

theorem unchangedBut_setMem (s : State) (m : Memory) : UnchangedBut [.memory] [] s (s.setMem m) := by
  refine ⟨fun r _ => reg_setMem s m r, fun p hp => ?_⟩
  cases p <;> simp [Part.Same] at hp ⊢

theorem unchangedBut_takeRand (s : State) : UnchangedBut [.random] [] s s.takeRand := by
  refine ⟨fun r _ => reg_takeRand s r, fun p hp => ?_⟩
  cases p <;> simp [Part.Same] at hp ⊢

theorem unchangedBut_withStack (s : State) (sp : Fin 17) (stack : Vector Word 16) :
    UnchangedBut [.stack] [] s { s with sp := sp, stack := stack } := by
  refine ⟨fun _ _ => rfl, fun p hp => ?_⟩
  cases p <;> simp [Part.Same] at hp ⊢

/-- CALL and RET write SP, STACK and PC alone. -/
theorem unchangedBut_withStack_setPc (s : State) (sp : Fin 17) (stack : Vector Word 16) (target : Word) :
    UnchangedBut [.pc, .stack] [] s (State.setPc { s with sp := sp, stack := stack } target) :=
  ((unchangedBut_withStack s sp stack).trans (unchangedBut_setPc _ target)).mono_parts (by simp)

theorem length_block (s : State) (n : Nat) : (s.block n).length = n := by simp [State.block]

/-- A block load into V0 to Vx leaves the registers above Vx alone, and all that is no register. -/
theorem unchangedBut_setRegsFrom0 (s : State) {bs : List Byte} {x : Reg} (hlen : bs.length = x.val + 1) :
    UnchangedBut [] ((List.finRange 16).filter (· ≤ x)) s (s.setRegsFrom0 bs) := by
  constructor
  · intro r hr
    have hlt : ¬ r.val < bs.length := by simpa [hlen, Nat.lt_succ_iff] using hr
    rw [reg_setRegsFrom0, dif_neg hlt]
  · intro p _
    cases p <;> simp [Part.Same]

/-! LD Vx, K (R603). -/

theorem exec_ldVxK_none {s : State} (x : Reg) (h : lowestKey s.keys = none) : exec (.ldVxK x) s = .next s := by
  have hrewind : s.pc + 2 - 2 = s.pc := BitVec.add_sub_cancel s.pc 2
  rw [exec, execLdVxK, waitForKey, advancePc_keys, h, advancePc_pc, hrewind]
  rfl

theorem exec_ldVxK_some {s : State} (x : Reg) {k : Nat} (h : lowestKey s.keys = some k) :
    exec (.ldVxK x) s = .next (s.advancePc.setReg x (BitVec.ofNat 8 k)) := by
  rw [exec, execLdVxK, waitForKey, advancePc_keys, h]

/-! The frame. -/

theorem UnchangedBut.refl (parts : List Part) (regs : List Reg) (s : State) : UnchangedBut parts regs s s :=
  ⟨fun _ _ => rfl, fun p _ => by cases p <;> simp [Part.Same]⟩

/-- An instruction that raises nothing changes at most what it may write. -/
theorem exec_frame {i : Instr} {s : State} (hno : ∀ r, ¬ Raises s i r) :
    ∃ t, exec i s = .next t ∧ UnchangedBut (partsWritten i) (regsWritten i) s t := by
  cases i
  case cls => exact ⟨_, rfl, unchangedBut_advancePc_setFb s _⟩
  case sys => exact ⟨_, rfl, unchangedBut_advancePc s []⟩
  case jp | jpV0Nnn => exact ⟨_, rfl, unchangedBut_setPc s _⟩
  case seVxKk | sneVxKk | seVxVy | sneVxVy | skp | sknp =>
    exact ⟨_, rfl, (unchangedBut_advancePc s []).trans (unchangedBut_setPc _ _) |>.mono_parts (by simp [partsWritten])⟩
  case ldVxKk | addVxKk | ldVxVy | orVxVy | andVxVy | xorVxVy | ldVxDt =>
    exact ⟨_, rfl, unchangedBut_advancePc_setReg s _ _⟩
  case addVxVy | subVxVy | shrVxVy | subnVxVy | shlVxVy =>
    exact ⟨_, rfl, unchangedBut_advancePc_setRegAndFlag s _ _ _⟩
  case ldINnn | addIVx | ldFVx => exact ⟨_, rfl, unchangedBut_advancePc_setIdx s _⟩
  case ldDtVx => exact ⟨_, rfl, (unchangedBut_advancePc s []).trans (unchangedBut_setDt _ _)⟩
  case ldStVx => exact ⟨_, rfl, (unchangedBut_advancePc s []).trans (unchangedBut_setSt _ _)⟩
  case rndVxKk x kk =>
    exact ⟨_, rfl, ((unchangedBut_advancePc s [x]).trans (unchangedBut_takeRand _)).setReg _ (by simp)⟩
  case ldVxK x =>
    cases hkey : lowestKey s.keys with
    | none => exact ⟨_, exec_ldVxK_none x hkey, .refl _ _ s⟩
    | some k => exact ⟨_, exec_ldVxK_some x hkey, unchangedBut_advancePc_setReg s x _⟩
  case call nnn =>
    have hsp := sp_lt_of_not_raises hno
    exact ⟨_, exec_call_ok nnn hsp, unchangedBut_withStack_setPc s _ _ _⟩
  case ret => exact ⟨_, exec_ret_ok fun h => hno _ (.ret h), unchangedBut_withStack_setPc s _ s.stack _⟩
  case ldBVx x =>
    have hin := Nat.le_of_not_gt fun h => hno _ (.ldBVx h)
    exact ⟨_, exec_ldBVx_ok x hin, (unchangedBut_advancePc s []).trans (unchangedBut_setMem _ _)⟩
  case ldMemVx x =>
    have hin := Nat.le_of_not_gt fun h => hno _ (.ldMemVx h)
    exact ⟨_, exec_ldMemVx_ok x hin, (((unchangedBut_advancePc s []).trans (unchangedBut_setMem _ _)).mono_parts
      (by simp [partsWritten])).setIdx _ (by simp [partsWritten])⟩
  case ldVxMem x =>
    have hin := Nat.le_of_not_gt fun h => hno _ (.ldVxMem h)
    exact ⟨_, exec_ldVxMem_ok x hin, (unchangedBut_advancePc s []).trans
      (unchangedBut_setRegsFrom0 _ (length_block s _))⟩
  case drw x y n =>
    have hin := inRange_of_not_raises hno
    exact ⟨_, exec_drw_ok x y hin, (((unchangedBut_advancePc s [15]).mono_parts (by simp [partsWritten])).setFb _
      (by simp [partsWritten])).setReg _ (by simp)⟩

theorem exec_unchangedBut {i : Instr} {s t : State} (h : exec i s = .next t) (hno : ∀ r, ¬ Raises s i r) :
    UnchangedBut (partsWritten i) (regsWritten i) s t := by
  obtain ⟨u, hu, hframe⟩ := exec_frame hno
  obtain rfl := Host.Outcome.next.inj (h.symm.trans hu)
  exact hframe

/-- Everything an instruction can do: fault entry, or a change within its frame. -/
theorem exec_cases {i : Instr} {s t : State} (h : exec i s = .next t) :
    (∃ r, Raises s i r ∧ t = s.enterFault (encode i) r) ∨
    ((∀ r, ¬ Raises s i r) ∧ UnchangedBut (partsWritten i) (regsWritten i) s t) := by
  by_cases hraise : ∃ r, Raises s i r
  · obtain ⟨r, hr⟩ := hraise
    exact .inl ⟨r, hr, Host.Outcome.next.inj (h.symm.trans (exec_of_raises hr))⟩
  · have hno := not_exists.1 hraise
    exact .inr ⟨hno, exec_unchangedBut h hno⟩

/-! What the frame says of one part or one register. -/

/-- Outside its frame an instruction changes the fault record alone. -/
theorem part_same {i : Instr} {s t : State} {p : Part} (h : exec i s = .next t) (hp : p ∉ partsWritten i)
    (hne : p ≠ .faultRecord) : p.Same s t := by
  rcases exec_cases h with ⟨r, -, rfl⟩ | ⟨-, -, hparts⟩
  · exact (unchangedBut_enterFault s _ r).2 p (by simpa using hne)
  · exact hparts p hp

theorem mem_partsWritten {i : Instr} {s t : State} {p : Part} (h : exec i s = .next t) (hchanged : ¬ p.Same s t)
    (hne : p ≠ .faultRecord) : p ∈ partsWritten i :=
  Decidable.byContradiction fun hp => hchanged (part_same h hp hne)

theorem mem_regsWritten {i : Instr} {s t : State} {q : Reg} (h : exec i s = .next t) (hchanged : t.reg q ≠ s.reg q) :
    q ∈ regsWritten i := by
  rcases exec_cases h with ⟨r, -, rfl⟩ | ⟨-, hregs, -⟩
  · exact absurd rfl hchanged
  · exact Decidable.byContradiction fun hq => hchanged (hregs q hq)

/-- Settles O56: a part that changed is in the instruction's frame, and the frames are read off. -/
theorem whoWritesEachPart : Obligations.WhoWritesEachPart := by
  intro i s t h
  have hkeys : Part.keys.Same s t := part_same h (by cases i <;> simp [partsWritten]) (by simp)
  refine ⟨fun hc => ?_, fun hc => ?_, fun hc => ?_, fun hc => ?_, fun hc => ?_, fun hc => ?_, hkeys⟩
  all_goals
    have hmem := mem_partsWritten h hc (by simp)
    revert hmem
    cases i <;> simp [partsWritten]

/-! Faults (R701). -/

/-- The conditions of the six instructions, as one disjunction. -/
theorem raises_iff {i : Instr} {s : State} : (∃ r, Raises s i r) ↔
    ((∃ nnn, i = .call nnn) ∧ s.sp.val = 16) ∨ (i = .ret ∧ s.sp.val = 0) ∨
    ((∃ x, i = .ldBVx x) ∧ s.idx.toNat + 2 > 0xFFF) ∨
    (∃ x, (i = .ldMemVx x ∨ i = .ldVxMem x) ∧ s.idx.toNat + x.val > 0xFFF) ∨
    (∃ x y n, i = .drw x y n ∧ n ≠ 0 ∧ s.idx.toNat + n.toNat > 0x1000) := by
  constructor
  · rintro ⟨r, h⟩
    cases h with
    | call h => exact .inl ⟨⟨_, rfl⟩, h⟩
    | ret h => exact .inr (.inl ⟨rfl, h⟩)
    | ldBVx h => exact .inr (.inr (.inl ⟨⟨_, rfl⟩, h⟩))
    | ldMemVx h => exact .inr (.inr (.inr (.inl ⟨_, .inl rfl, h⟩)))
    | ldVxMem h => exact .inr (.inr (.inr (.inl ⟨_, .inr rfl, h⟩)))
    | drw hn h => exact .inr (.inr (.inr (.inr ⟨_, _, _, rfl, hn, h⟩)))
  · rintro (⟨⟨_, rfl⟩, h⟩ | ⟨rfl, h⟩ | ⟨⟨_, rfl⟩, h⟩ | ⟨_, rfl | rfl, h⟩ | ⟨_, _, _, rfl, hn, h⟩)
    · exact ⟨_, .call h⟩
    · exact ⟨_, .ret h⟩
    · exact ⟨_, .ldBVx h⟩
    · exact ⟨_, .ldMemVx h⟩
    · exact ⟨_, .ldVxMem h⟩
    · exact ⟨_, .drw hn h⟩

/-- An instruction that raises nothing leaves the fault record. -/
theorem exec_fault_cases {i : Instr} {s t : State} (h : exec i s = .next t) :
    (∃ r, Raises s i r ∧ t = s.enterFault (encode i) r) ∨ ((∀ r, ¬ Raises s i r) ∧ t.fault = s.fault) :=
  (exec_cases h).imp_right fun ⟨hno, _, hparts⟩ => ⟨hno, hparts .faultRecord (faultRecord_notMem_partsWritten i)⟩

/-- Settles O54: the core is halted after an instruction exactly if it raised, for else the record is as it was. -/
theorem onlyTheseFaultsArise : Obligations.OnlyTheseFaultsArise := by
  intro i s t hrun h
  rw [← raises_iff]
  rcases exec_fault_cases h with ⟨r, hr, rfl⟩ | ⟨hno, hsame⟩
  · exact ⟨⟨fun _ => ⟨r, hr⟩, fun _ => rfl⟩, by simp⟩
  · exact ⟨⟨by simp [hsame, hrun], fun ⟨r, hr⟩ => absurd hr (hno r)⟩, fun _ => hsame⟩

theorem code_mem (cause : Fault) : cause.code ∈ [1, 2, 3, 4] := by
  cases cause <;> decide

/-- Settles O55: a Step that halts the core ended in fault entry, of the fetch or of the instruction. -/
theorem faultsArePrecise : Obligations.FaultsArePrecise := by
  intro s t hrun h hhalt
  obtain ⟨op, r, rfl⟩ : ∃ op r, t = s.enterFault op r := by
    rcases step_cases h with ⟨hhalted, -⟩ | ⟨-, -, rfl⟩ | ⟨-, -, -, rfl⟩ | ⟨-, -, i, -, hexec⟩
    · exact absurd hhalted (by simp [hrun])
    · exact ⟨_, _, rfl⟩
    · exact absurd hhalt (by simp [hrun])
    · rcases exec_fault_cases hexec with ⟨r, -, rfl⟩ | ⟨-, hsame⟩
      · exact ⟨_, r, rfl⟩
      · exact absurd hhalt (by simp [hsame, hrun])
  exact ⟨rfl, rfl, code_mem r.cause⟩

/-! VF (R102, R103). -/

theorem flagByte_eq (b : Bool) : flagByte b = 0 ∨ flagByte b = 1 := by
  cases b
  · exact .inl rfl
  · exact .inr rfl

/-- A flag-writing instruction leaves its flag in VF, and a flag is 0 or 1. -/
theorem reg15_of_flag {i : Instr} {s t u : State} {x : Reg} {b : Byte} {flag : Bool} (h : exec i s = .next t)
    (hi : exec i s = .next (u.setRegAndFlag x b (flagByte flag))) : t.reg 15 = 0 ∨ t.reg 15 = 1 := by
  obtain rfl := Host.Outcome.next.inj (h.symm.trans hi)
  rw [reg_setRegAndFlag_flag]
  exact flagByte_eq flag

/-- Settles O57: VF changed only if the frame names it, and the last write of the six is a flag. -/
theorem vfAsFlag : Obligations.VfAsFlag := by
  intro i s t h
  constructor
  · intro hchanged
    have hmem := mem_regsWritten h hchanged
    revert hmem
    cases i
    case ldVxMem x =>
      have hlast : 15 ≤ x → x = 15 := fun hx => Fin.le_antisymm (Fin.le_last x) hx
      simpa [regsWritten] using hlast
    all_goals simp [regsWritten, eq_comm]
  · rintro ⟨x, y, n, rfl | rfl | rfl | rfl | rfl | ⟨rfl, hin⟩⟩
    case inr.inr.inr.inr.inr =>
      obtain rfl := Host.Outcome.next.inj (h.symm.trans (exec_drw_ok x y hin))
      rw [reg_setReg_same]
      exact flagByte_eq _
    all_goals exact reg15_of_flag h rfl

end Sys2Proof.Machine
end

section
/-! PROOFS. The Step (spec/30_encoding.md R320): what it answers and what status it returns, by how it begins. -/

namespace Sys2Proof.Machine

/-! How a Step begins, from the state it finds. -/

theorem beginStep_halted {s : State} (hhalt : s.fault.halted = true) :
    beginStep s = .ended s (.fault s.fault.code) := by
  rw [beginStep, if_pos hhalt]

theorem beginStep_fetchError {s : State} (hrun : s.fault.halted = false) (hpc : s.pc.toNat > 0xFFE) :
    beginStep s = .ended (s.enterFault 0 ⟨.fetchOutOfRange, max s.pc.toNat 0x1000⟩) (.fault 1) := by
  simp [beginStep, hrun, fetchRead_error s.mem hpc, Fault.code]

/-- A fetch in range reads the word at PC. -/
theorem fetchRead_wordAtPc {s : State} (hpc : s.pc.toNat ≤ 0xFFE) : fetchRead s.mem s.pc.toNat = .ok (wordAtPc s) :=
  fetchRead_ok s.mem hpc

theorem beginStep_unknown {s : State} {e : UnknownWord} (hrun : s.fault.halted = false) (hpc : s.pc.toNat ≤ 0xFFE)
    (hword : decode (wordAtPc s) = .error e) : beginStep s = .ended s.advancePc .unknownOpcode := by
  simp [beginStep, hrun, fetchRead_wordAtPc hpc, hword]

theorem beginStep_run {s : State} {i : Instr} (hrun : s.fault.halted = false) (hpc : s.pc.toNat ≤ 0xFFE)
    (hword : decode (wordAtPc s) = .ok i) : beginStep s = .run i := by
  simp [beginStep, hrun, fetchRead_wordAtPc hpc, hword]

/-! What follows from how it begins. -/

theorem step_of_ended {s t : State} {st : Status} (h : beginStep s = .ended t st) :
    step s = .next t ∧ stepStatus s = some st := by
  rw [step, stepStatus, h]
  exact ⟨rfl, rfl⟩

theorem step_of_run {s : State} {i : Instr} (h : beginStep s = .run i) : step s = exec i s := by
  rw [step, h]

theorem stepStatus_of_run {s t : State} {i : Instr} (h : beginStep s = .run i) (hexec : exec i s = .next t) :
    stepStatus s = some (if t.fault.halted then .fault t.fault.code else .ok) := by
  simp only [stepStatus, h, hexec]

/-- Settles O6: neither HALTED nor the fetch nor the decoder ends the Step before dispatch. -/
theorem stepRunsDecodedInstruction : Obligations.StepRunsDecodedInstruction := fun _ _ hrun hpc hword =>
  step_of_run (beginStep_run hrun hpc hword)

/-- Settles O7: the Step ends at the decoder, with PC advanced. -/
theorem stepOnUnknownWord : Obligations.StepOnUnknownWord := by
  intro s e hrun hpc hword
  obtain ⟨hstep, hstatus⟩ := step_of_ended (beginStep_unknown hrun hpc hword)
  exact ⟨s.advancePc, hstep, rfl, unchangedBut_advancePc s [], hstatus⟩

/-- Settles O8: the Step ends at the fetch, and the record's address is PC, or 0x1000 where only the second byte is
outside memory. -/
theorem fetchOutOfRangeFaults : Obligations.FetchOutOfRangeFaults := by
  intro s hrun hpc
  obtain ⟨hstep, hstatus⟩ := step_of_ended (beginStep_fetchError hrun hpc)
  have haddr : (if s.pc.toNat = 0xFFF then 0x1000 else s.pc.toNat) = max s.pc.toNat 0x1000 := by
    split <;> omega
  rw [haddr]
  exact ⟨_, hstep, faulted_enterFault s 0 (by simp only; omega), hstatus⟩

/-- Settles O9: the Step ends at HALTED. -/
theorem haltedStepChangesNothing : Obligations.HaltedStepChangesNothing := fun _ hhalt =>
  step_of_ended (beginStep_halted hhalt)

/-- Settles O10: what ends before dispatch ends in a state, and so does every instruction. -/
theorem everyStepAnswersNext : Obligations.EveryStepAnswersNext := by
  intro s
  cases hbegin : beginStep s with
  | ended t st => exact ⟨t, (step_of_ended hbegin).1⟩
  | run i =>
    rw [step_of_run hbegin]
    exact exec_next i s

/-- Settles O11, by the four ways a Step begins. -/
theorem statusOfEveryStep : Obligations.StatusOfEveryStep := by
  intro s t h
  rcases step_cases h with ⟨hhalt, rfl⟩ | ⟨hrun, hpc, rfl⟩ | ⟨hrun, hpc, ⟨e, hword⟩, rfl⟩ | ⟨hrun, hpc, i, hword, hexec⟩
  · refine ⟨_, (step_of_ended (beginStep_halted hhalt)).2, fun _ => rfl, ?_, ?_⟩ <;> simp [hhalt]
  · refine ⟨_, (step_of_ended (beginStep_fetchError hrun hpc)).2, fun _ => rfl, ?_, ?_⟩
    · simp [Nat.not_le.2 hpc]
    · simp
  · refine ⟨_, (step_of_ended (beginStep_unknown hrun hpc hword)).2, ?_, ?_, fun _ => .inr rfl⟩
    · simp [hrun]
    · exact ⟨fun _ => ⟨hrun, hpc, e, hword⟩, fun _ => rfl⟩
  · have hdecodes : decode (wordAtPc s) = .ok i := hword
    refine ⟨_, stepStatus_of_run (beginStep_run hrun hpc hword) hexec, fun hhalt => if_pos hhalt, ?_, fun hgoes => ?_⟩
    · split <;> simp [hdecodes]
    · simp [hgoes]

end Sys2Proof.Machine
end

section
/-! PROOFS. Memory transfer and the stack (spec/42_index_memory.md, spec/40_flow_stack.md section 3): what stands where
after a block write or a push, and the round trips. -/

namespace Sys2Proof.Machine

/-! Reads after a block write. -/

theorem read_writeAll_in (m : Memory) (base : Nat) {bs : List Byte} {k : Nat} (hk : k < bs.length) :
    (m.writeAll base bs).read (base + k) = bs[k] := by
  rw [(writeAll_spec m base bs).1, dif_pos (by omega)]
  simp only [Nat.add_sub_cancel_left]

theorem read_writeAll_out (m : Memory) {base a : Nat} {bs : List Byte} (ha : a < base ∨ base + bs.length ≤ a) :
    (m.writeAll base bs).read a = m.read a := by
  rw [(writeAll_spec m base bs).1, dif_neg (by omega)]

theorem wf_writeAll {m : Memory} {base : Nat} {bs : List Byte} (h : base + bs.length ≤ 0x1000) (hwf : m.wf = true) :
    (m.writeAll base bs).wf = true :=
  (writeAll_spec m base bs).2 h hwf

theorem getElem_block (s : State) {n k : Nat} (hk : k < (s.block n).length) :
    (s.block n)[k] = s.mem.read (s.idx.toNat + k) := by
  simp [State.block]

/-- Settles O23: the block written is the list of the three digits. -/
theorem storeDecimalDigits : Obligations.StoreDecimalDigits := by
  intro x s
  refine ⟨encodes_of_decodeGroupF x 0x33 (by simp [decodeGroupF]), fun hin => ?_⟩
  have hlen := length_decimalDigits (s.reg x)
  have hdigit (k : Nat) (hk : k < 3) :=
    congrArg BitVec.toNat (read_writeAll_in s.mem s.idx.toNat (bs := decimalDigits (s.reg x)) (k := k) hk)
  have hno : ∀ r, ¬ Raises s (.ldBVx x) r := fun _ h => by cases h; omega
  refine ⟨_, exec_ldBVx_ok x hin, ?_, ?_, ?_, fun a ha => read_writeAll_out _ (by omega), wf_writeAll (by omega), rfl,
    exec_unchangedBut (exec_ldBVx_ok x hin) hno⟩
  · exact (hdigit 0 (by decide)).trans (Nat.mod_eq_of_lt (by omega))
  · exact (hdigit 1 (by decide)).trans (Nat.mod_eq_of_lt (by omega))
  · exact (hdigit 2 (by decide)).trans (Nat.mod_eq_of_lt (by omega))

/-- Settles O24: the block written is the list of V0 to Vx. -/
theorem storeRegisterBlock : Obligations.StoreRegisterBlock := by
  intro x s
  refine ⟨encodes_of_decodeGroupF x 0x55 (by simp [decodeGroupF]), fun hin => ?_⟩
  have hlen := length_regsTo s x
  have hidx : (s.idx + BitVec.ofNat 16 (blockSize x)).toNat = s.idx.toNat + x.val + 1 := by
    rw [BitVec.toNat_add, BitVec.toNat_ofNat, blockSize]
    omega
  have hno : ∀ r, ¬ Raises s (.ldMemVx x) r := fun _ h => by cases h; omega
  refine ⟨_, exec_ldMemVx_ok x hin, fun k hk => ?_, fun a ha => read_writeAll_out _ (by omega), wf_writeAll (by omega),
    hidx, rfl, exec_unchangedBut (exec_ldMemVx_ok x hin) hno⟩
  have hk' : k.val < (s.regsTo x).length := hlen ▸ Nat.lt_succ_of_le hk
  exact (read_writeAll_in s.mem s.idx.toNat hk').trans (getElem_regsTo s x k hk')

/-- Settles O25: the registers loaded are the bytes of the block at I, and no part but PC is written. -/
theorem loadRegisterBlock : Obligations.LoadRegisterBlock := by
  intro x s
  refine ⟨encodes_of_decodeGroupF x 0x65 (by simp [decodeGroupF]), fun hin => ?_⟩
  have hlen : (s.block (blockSize x)).length = x.val + 1 := length_block s _
  have hno : ∀ r, ¬ Raises s (.ldVxMem x) r := fun _ h => by cases h; omega
  refine ⟨_, exec_ldVxMem_ok x hin, fun k hk => ?_, fun k hk => ?_, rfl,
    (exec_unchangedBut (exec_ldVxMem_ok x hin) hno).2⟩
  · rw [reg_setRegsFrom0, dif_pos (hlen ▸ Nat.lt_succ_of_le hk), getElem_block]
  · rw [reg_setRegsFrom0, dif_neg (hlen ▸ Nat.not_lt.2 hk), reg_advancePc]

/-- Settles O27: the bytes Fx55 stored are the bytes Fx65 loads. -/
theorem storedBlockLoadsBack : Obligations.StoredBlockLoadsBack := by
  intro x s t u hin h hmem hidx
  obtain ⟨t', ht', hstored, -⟩ := (storeRegisterBlock x s).2 hin
  obtain rfl := Host.Outcome.next.inj (h.symm.trans ht')
  obtain ⟨v, hv, hloaded, -⟩ := (loadRegisterBlock x u).2 (hidx ▸ hin)
  exact ⟨v, hv, fun k hk => by rw [hloaded k hk, hmem, hidx, hstored k hk]⟩

/-- Settles O28: the two bytes the fetch reads are V0 and V1 as Fx55 stored them. -/
theorem storedWordIsFetched : Obligations.StoredWordIsFetched := by
  intro x s t u i hx hin h hword hmem hpc hrun
  obtain ⟨t', ht', hstored, -⟩ := (storeRegisterBlock x s).2 hin
  obtain rfl := Host.Outcome.next.inj (h.symm.trans ht')
  have hfetched : wordAtPc u = wordOfBytes (s.reg 0) (s.reg 1) := by
    rw [wordAtPc, hmem, hpc, ← hstored 0 (Fin.zero_le x), ← hstored 1 hx]
    rfl
  exact stepRunsDecodedInstruction u i hrun (by rw [hpc]; omega) (hfetched ▸ hword)

/-! The stack. -/

theorem encodes_call (nnn : BitVec 12) : Encodes (.call nnn) (0x2000 + nnn.toNat) :=
  encodes_of_decode_encode (toNat_formNnn _ _) (decode_encode rfl)

/-- Settles O33: SP below 16 pushes, and SP = 16 raises. -/
theorem callPushesOrOverflows : Obligations.CallPushesOrOverflows := by
  intro nnn s
  refine ⟨encodes_call nnn, fun hsp => ?_, fun hsp => exec_faulted (.call hsp)⟩
  have hno : ∀ r, ¬ Raises s (.call nnn) r := fun _ h => by cases h; omega
  refine ⟨_, exec_call_ok nnn hsp, ?_, rfl, fun j hj => ?_, toNat_addrOperand nnn,
    exec_unchangedBut (exec_call_ok nnn hsp) hno⟩
  · exact Vector.getElem_set_self _
  · exact Vector.getElem_set_ne hsp j.isLt hj.symm

/-- Settles O34: SP above 0 pops, and SP = 0 raises. -/
theorem returnPopsOrUnderflows : Obligations.ReturnPopsOrUnderflows := by
  intro s
  refine ⟨encodes_of_decode_encode rfl rfl, fun hsp => ?_, fun hsp => exec_faulted (.ret hsp)⟩
  have hno : ∀ r, ¬ Raises s .ret r := fun _ h => by cases h; omega
  have hok := exec_ret_ok (Nat.ne_of_gt hsp)
  exact ⟨_, hok, rfl, rfl, rfl, exec_unchangedBut hok hno⟩

/-- Settles O35: the slot RET pops is the one the CALL pushed. -/
theorem callThenReturn : Obligations.CallThenReturn := by
  intro nnn s t u hsp h husp hustack
  obtain ⟨t', ht', hslot, htsp, -⟩ := (callPushesOrOverflows nnn s).2.1 hsp
  obtain rfl := Host.Outcome.next.inj (h.symm.trans ht')
  have husp' : u.sp.val = s.sp.val + 1 := by rw [husp, htsp]
  obtain ⟨v, hv, hvsp, hvpc, hvstack, hframe⟩ := (returnPopsOrUnderflows u).2.1 (by omega)
  have hback : u.sp.val - 1 = s.sp.val := by omega
  refine ⟨v, hv, ?_, Fin.ext (hvsp.trans hback), hvstack, hframe⟩
  rw [hvpc, hustack, ← hslot]
  simp only [hback]

end Sys2Proof.Machine
end

section
/-! PROOFS. The random byte, arithmetic on I, SYS, the jump by V0 and the key instructions (spec/41_alu.md section 5,
spec/42_index_memory.md, spec/40_flow_stack.md, spec/44_timers_keys.md). -/

namespace Sys2Proof.Machine

theorem exec_rndVxKk (x : Reg) (kk : Byte) (s : State) :
    exec (.rndVxKk x kk) s = .next (s.advancePc.takeRand.setReg x (s.rand &&& kk)) := rfl

/-- The byte handed over is the Step's random byte (R320). -/
theorem rand_setRandIn (s : State) (r : Byte) : (s.setRandIn (some r)).rand = r := rfl

/-- Settles O19: a byte inside the mask is its own masked value, so handing it over gives it. -/
theorem randomByteMasked : Obligations.RandomByteMasked := by
  intro x kk s
  refine ⟨encodes_of_decode_encode (toNat_formXkk _ _ _) (decode_encode rfl),
    ⟨_, exec_rndVxKk x kk s, reg_setReg_same _ _ _, rfl, exec_unchangedBut (exec_rndVxKk x kk s) (by rintro _ ⟨⟩)⟩,
    fun v hv => ⟨v, _, exec_rndVxKk x kk _, ?_⟩⟩
  rw [reg_setReg_same, rand_setRandIn]
  calc v &&& kk = (v &&& kk) ||| (v &&& ~~~kk) := by rw [hv]; simp
    _ = v := by rw [← BitVec.and_or_distrib_left, BitVec.or_not_self, BitVec.and_allOnes]

/-! Bytes added to I and to a jump target. -/

theorem toNat_byteOperand (b : Byte) : (byteOperand b).toNat = b.toNat :=
  BitVec.toNat_setWidth_of_le (by decide)

/-- Settles O21: I is the sum mod 2^16, and VF is in the frame. -/
theorem addToIndexWraps : Obligations.AddToIndexWraps := by
  intro x s
  refine ⟨encodes_of_decodeGroupF x 0x1E (by simp [decodeGroupF]), _, rfl, ?_, rfl, unchangedBut_advancePc_setIdx s _⟩
  rw [setIdx_idx, BitVec.toNat_add, toNat_byteOperand]

/-- Settles O22: the glyph address of the whole byte, which never wraps. -/
theorem glyphAddress : Obligations.GlyphAddress := by
  intro x s
  refine ⟨encodes_of_decodeGroupF x 0x29 (by simp [decodeGroupF]), _, rfl, ?_, rfl, unchangedBut_advancePc_setIdx s _⟩
  have hbyte := toNat_byteOperand (s.reg x)
  rw [setIdx_idx, glyphAddr]
  bv_omega

/-- Settles O29: SYS is the advance alone. -/
theorem sysOnlyAdvances : Obligations.SysOnlyAdvances := by
  intro nnn s
  refine ⟨fun hcls hret => encodes_of_decode_encode ?_ (decode_encode ?_), _, rfl, rfl, unchangedBut_advancePc s []⟩
  · exact (toNat_formNnn _ _).trans (Nat.zero_add _)
  · simpa [Instr.wf, sysOperandOk] using ⟨hcls, hret⟩

/-- The target of JP V0 never wraps (R112). -/
theorem toNat_jumpTarget (nnn : BitVec 12) (b : Byte) :
    (addrOperand nnn + byteOperand b).toNat = nnn.toNat + b.toNat := by
  rw [BitVec.toNat_add, toNat_addrOperand, toNat_byteOperand]
  omega

/-- Settles O31: the one write is to PC, and the sum is below 2^16. -/
theorem jumpPlusV0 : Obligations.JumpPlusV0 := fun nnn s =>
  ⟨encodes_of_decode_encode (toNat_formNnn _ _) (decode_encode rfl), _, rfl, toNat_jumpTarget nnn (s.reg 0),
    unchangedBut_setPc s _⟩

/-! Keys (R600 to R603). -/

/-- The key a byte names is its low nibble. -/
theorem keyPressed_eq (s : State) (b : Byte) : s.keyPressed b = s.keys.getLsbD (b.toNat % 16) := by
  simp [State.keyPressed]

theorem encodes_groupE {i : Instr} (x : Reg) (kk : Byte) (hencode : encode i = formXkk 0xE x kk)
    (hwf : i.wf = true) : Encodes i (0xE000 + kk.toNat + 0x100 * x.val) := by
  have hgroup : (0xE : BitVec 4).toNat = 14 := rfl
  refine encodes_of_decode_encode ?_ (decode_encode hwf)
  rw [hencode, toNat_formXkk, hgroup]
  omega

theorem exec_skips_not {i : Instr} {s : State} {taken : Bool} (h : exec i s = .next (s.advancePc.skipIf (!taken))) :
    ∃ t, exec i s = .next t ∧ t.pc = s.pc + (if taken = true then 2 else 4) ∧ UnchangedBut [.pc] [] s t := by
  cases taken <;> simpa using exec_skips h

/-- Settles O39: both are skips on the level of the key, in its two senses. -/
theorem keySkips : Obligations.KeySkips := by
  intro x s
  rw [← keyPressed_eq]
  exact ⟨encodes_groupE x 0x9E rfl rfl, encodes_groupE x 0xA1 rfl rfl, exec_skips rfl, exec_skips_not rfl⟩

theorem lowestKey_eq_none {keys : BitVec 16} (hnone : ∀ k < 16, keys.getLsbD k = false) : lowestKey keys = none := by
  rcases lowestKey_cases keys with ⟨h, -⟩ | ⟨k, hk, -, hpressed, -⟩
  · exact h
  · exact absurd hpressed (by simp [hnone k hk])

theorem lowestKey_eq_some {keys : BitVec 16} {k : Nat} (hk : k < 16) (hpressed : keys.getLsbD k = true)
    (hlower : ∀ j < k, keys.getLsbD j = false) : lowestKey keys = some k := by
  rw [lowestKey, List.find?_range_eq_some]
  exact ⟨hpressed, List.mem_range.2 hk, fun j hj => by simp [hlower j hj]⟩

end Sys2Proof.Machine

namespace Sys2Proof

open Machine

/-- Settles O40: with no key pressed the rewind undoes the advance, else Vx takes the lowest key. -/
theorem waitForKey : Obligations.WaitForKey := by
  intro x s
  refine ⟨encodes_of_decodeGroupF x 0x0A (by simp [decodeGroupF]), fun hnone => ?_, fun k hk hpressed hlower => ?_⟩
  · exact exec_ldVxK_none x (lowestKey_eq_none hnone)
  · refine ⟨_, exec_ldVxK_some x (lowestKey_eq_some hk hpressed hlower), ?_, rfl, unchangedBut_advancePc_setReg s x _⟩
    rw [reg_setReg_same]
    exact Nat.mod_eq_of_lt (by omega)

end Sys2Proof
end

section
/-! PROOFS. The operations of the host (spec/10_state.md R150): Reset, LoadRom, a run of ticks, and Step with its random
byte. -/

namespace Sys2Proof.Machine

/-- Settles O43, by induction on the number of ticks. -/
theorem ticksCountDown : Obligations.TicksCountDown := by
  intro k
  induction k with
  | zero => exact fun s => ⟨rfl, rfl, .refl _ _ s⟩
  | succ k ih =>
    intro s
    obtain ⟨hdt, hst, hframe⟩ := ih s.tickTimers
    rw [List.replicate_succ, performAll]
    refine ⟨hdt.trans ?_, hst.trans ?_, ((unchangedBut_tickTimers s).trans hframe).mono_parts (by simp)⟩
    · rw [tickTimers_dt, toNat_tickTimer]
      omega
    · rw [tickTimers_st, toNat_tickTimer]
      omega

/-! LoadRom (R820). -/

theorem romAccepted_iff (bytes : List Byte) : romAccepted bytes = true ↔ 0 < bytes.length ∧ bytes.length ≤ 3584 := by
  simp [romAccepted]

theorem perform_loadRom_ok {bytes : List Byte} (h : romAccepted bytes = true) (s : State) :
    perform (.loadRom bytes) s = (s.setMem (s.mem.writeAll 0x200 bytes), .romOk) := by
  rw [perform, State.loadRom, if_pos h, if_pos h]

theorem perform_loadRom_rejected {bytes : List Byte} (h : ¬ romAccepted bytes = true) (s : State) :
    perform (.loadRom bytes) s = (s, .romRejected) := by
  rw [perform, State.loadRom, if_neg h, if_neg h]

/-- Settles O46: an accepted ROM fits between 0x200 and the end of memory. -/
theorem loadRomCopiesOrRejects : Obligations.LoadRomCopiesOrRejects := by
  refine fun bytes s => ⟨fun hpos hmax => ?_, fun h => perform_loadRom_rejected ?_ s⟩
  · exact ⟨_, perform_loadRom_ok ((romAccepted_iff bytes).2 ⟨hpos, hmax⟩) s, fun k hk => read_writeAll_in _ _ hk,
      fun a ha => read_writeAll_out _ ha, wf_writeAll (by omega), unchangedBut_setMem s _⟩
  · rw [romAccepted_iff]
    omega

/-! Reset (R160, R800). -/

/-- Settles O47: the two states are the reset state but for KEY and the model's random input. -/
theorem resetLeavesResetValues : Obligations.ResetLeavesResetValues := by
  refine fun s => ⟨s.afterReset, rfl, rfl, fun u hu => ?_⟩
  obtain ⟨keys, randIn, draws, rfl⟩ : ∃ keys randIn draws,
      u = { State.reset with keys := keys, randIn := randIn, draws := draws } := by
    rcases List.mem_pair.1 hu with rfl | rfl
    · exact ⟨_, _, _, rfl⟩
    · exact ⟨_, _, _, rfl⟩
  refine ⟨fun _ _ => rfl, fun r => ?_, rfl, rfl, rfl, rfl, rfl, fun j => ?_, fun px _ py _ => ?_, rfl, rfl, rfl, rfl,
    rfl⟩
  · exact Vector.getElem_replicate r.isLt
  · exact Vector.getElem_replicate j.isLt
  · exact Bool.eq_false_iff.1 (pixelAt_blank _)

/-- Settles O48: what Reset keeps, KEY and the random input, it keeps twice. -/
theorem resetIsIdempotent : Obligations.ResetIsIdempotent := fun _ => ⟨rfl, rfl⟩

/-! Step(rand). -/

theorem hostStep_eq {rand : Byte} {s t : State} {st : Status} (hstep : step (s.setRandIn (some rand)) = .next t)
    (hstatus : stepStatus (s.setRandIn (some rand)) = some st) :
    perform (.step rand) s = (t.setRandIn none, .status st) := by
  simp only [perform, hostStep, hstep, hstatus]

theorem unchangedBut_setRandIn (s : State) (r : Option Byte) : UnchangedBut [.random] [] s (s.setRandIn r) := by
  refine ⟨fun q _ => reg_setRandIn s r q, fun p hp => ?_⟩
  cases p <;> simp [Part.Same] at hp ⊢

/-- Settles O50: a Step answers a state and a status, and a fetched Cxkk reads the byte handed over. -/
theorem hostStepHandsOverRand : Obligations.HostStepHandsOverRand := by
  intro r s
  obtain ⟨t, hstep⟩ := everyStepAnswersNext (s.setRandIn (some r))
  obtain ⟨st, hstatus, -⟩ := statusOfEveryStep _ t hstep
  refine ⟨t, st, hstep, hstatus, hostStep_eq hstep hstatus, fun x kk hrun hpc hword => ?_⟩
  have hbegin : beginStep (s.setRandIn (some r)) = .run (.rndVxKk x kk) := beginStep_run hrun hpc hword
  rw [step_of_run hbegin, exec_rndVxKk] at hstep
  obtain rfl := Host.Outcome.next.inj hstep
  rw [stepStatus_of_run hbegin (exec_rndVxKk x kk _)] at hstatus
  refine ⟨(Option.some.inj hstatus).symm.trans (by simp [hrun]), ?_⟩
  rw [reg_setReg_same, rand_setRandIn]

/-- What Step does to a halted core: the byte handed over is gone, and that is all. -/
theorem perform_step_halted {s : State} (hhalt : s.fault.halted = true) (r : Byte) :
    perform (.step r) s = (s.setRandIn none, .status (.fault s.fault.code)) := by
  obtain ⟨hstep, hstatus⟩ := haltedStepChangesNothing (s.setRandIn (some r)) hhalt
  exact hostStep_eq (t := s.setRandIn (some r)) hstep hstatus

/-- Settles O49, operation by operation. -/
theorem onlyResetLeavesHalted : Obligations.OnlyResetLeavesHalted := by
  intro op s hhalt hop
  cases op with
  | reset => exact absurd rfl hop
  | step r =>
    rw [perform_step_halted hhalt r]
    exact ⟨rfl, rfl, fun _ _ => ⟨rfl, unchangedBut_setRandIn s none⟩⟩
  | loadRom bytes =>
    by_cases hrom : romAccepted bytes = true
    · simp [perform_loadRom_ok hrom]
    · simp [perform_loadRom_rejected hrom]
  | setKeys k => simp [perform]
  | tickTimers => simp [perform]
  | readFramebuffer => simp [perform]

end Sys2Proof.Machine
end

section
/-! PROOFS. The invariant of the core (log entry 15): each named update keeps it, so each instruction, each Step and
each schedule of the six operations does. -/

namespace Sys2Proof.Machine

/-- The invariant looks at memory, PC, the stack slots and the fault record. -/
theorem State.Inv.congr {s t : State} (hs : s.Inv) (hmem : t.mem = s.mem) (hpc : t.pc = s.pc)
    (hstack : t.stack = s.stack) (hfault : t.fault = s.fault) : t.Inv where
  memory := hmem ▸ hs.memory
  pc := hpc ▸ hs.pc
  stack := hstack ▸ hs.stack
  fault := by rw [hfault, hpc]; exact hs.fault

/-- While the core runs, the record does not bind PC. -/
theorem State.Inv.setPc {s : State} (hs : s.Inv) (hrun : s.fault.halted = false) {target : Word}
    (htarget : target.toNat ≤ 0x10FE) : (s.setPc target).Inv where
  memory := hs.memory
  pc := htarget
  stack := hs.stack
  fault := by simpa [FaultRecord.Coherent, hrun] using hs.fault

theorem State.Inv.setMem {s : State} (hs : s.Inv) {m : Memory} (hm : m.wf = true) : (s.setMem m).Inv where
  memory := hm
  pc := hs.pc
  stack := hs.stack
  fault := hs.fault

/-- A write of a return address to a slot (R404). -/
theorem State.Inv.setSlot {s : State} (hs : s.Inv) {j : Nat} (hj : j < 16) {ret : Word} (hret : ret.toNat ≤ 0x1000)
    (sp : Fin 17) : State.Inv { s with stack := s.stack.set j ret, sp := sp } where
  memory := hs.memory
  pc := hs.pc
  stack i := by
    have hold := hs.stack i
    rw [Vector.get_eq_getElem] at hold ⊢
    rw [Vector.getElem_set]
    split <;> assumption
  fault := hs.fault

theorem State.Inv.enterFault {s : State} (hs : s.Inv) {op : Word} {r : Raise}
    (hcoherent : (s.enterFault op r).fault.Coherent s.pc) : (s.enterFault op r).Inv where
  memory := hs.memory
  pc := hs.pc
  stack := hs.stack
  fault := hcoherent

/-! Fault entry leaves one of the records of R701. -/

theorem enterFault_halted (s : State) (op : Word) (r : Raise) : (s.enterFault op r).fault.halted = true := rfl

/-- FAULT_ADDR holds the first address above 0xFFF (R126). -/
theorem toNat_faultAddr (a : Word) : (BitVec.ofNat 17 (max a.toNat 0x1000)).toNat = max a.toNat 0x1000 :=
  Nat.mod_eq_of_lt (by omega)

theorem coherent_fetchError {s : State} (hpc : s.pc.toNat > 0xFFE) :
    (s.enterFault 0 ⟨.fetchOutOfRange, max s.pc.toNat 0x1000⟩).fault.Coherent s.pc := by
  rw [FaultRecord.Coherent, if_pos (enterFault_halted ..)]
  exact ⟨rfl, .inl ⟨rfl, rfl, hpc, toNat_faultAddr s.pc⟩⟩

theorem Raises.coherent {s : State} {i : Instr} {r : Raise} (h : Raises s i r) :
    (s.enterFault (encode i) r).fault.Coherent s.pc := by
  rw [FaultRecord.Coherent, if_pos (enterFault_halted ..)]
  refine ⟨rfl, ?_⟩
  have haddr := toNat_faultAddr s.idx
  have hlow : 0x1000 ≤ (BitVec.ofNat 17 (max s.idx.toNat 0x1000)).toNat := by omega
  have hhigh : (BitVec.ofNat 17 (max s.idx.toNat 0x1000)).toNat ≤ 0xFFFF := by omega
  cases h with
  | call => exact .inr (.inl ⟨rfl, rfl, _, rfl⟩)
  | ret => exact .inr (.inr (.inl ⟨rfl, rfl, rfl⟩))
  | @ldBVx x => exact .inr (.inr (.inr ⟨rfl, hlow, hhigh, x, 0, 0, .inl rfl⟩))
  | @ldMemVx x => exact .inr (.inr (.inr ⟨rfl, hlow, hhigh, x, 0, 0, .inr (.inl rfl)⟩))
  | @ldVxMem x => exact .inr (.inr (.inr ⟨rfl, hlow, hhigh, x, 0, 0, .inr (.inr (.inl rfl))⟩))
  | @drw x y n => exact .inr (.inr (.inr ⟨rfl, hlow, hhigh, x, y, n, .inr (.inr (.inr rfl))⟩))

/-! An instruction fetched inside memory. -/

section

variable {s t : State} (hs : s.Inv) (hrun : s.fault.halted = false) (hpc : s.pc.toNat ≤ 0xFFE)

include hs hrun hpc

theorem State.Inv.advancePc : s.advancePc.Inv :=
  hs.setPc hrun (by bv_omega)

theorem State.Inv.skipIf (taken : Bool) : (s.advancePc.skipIf taken).Inv := by
  rw [advancePc_skipIf]
  have hskip : (if taken then 4 else 2 : Word).toNat ≤ 4 := by cases taken <;> decide
  refine hs.setPc hrun ?_
  rw [BitVec.toNat_add]
  omega

/-- Each case is the updates the instruction is made of, one after another. -/
theorem inv_of_exec {i : Instr} (h : exec i s = .next t) : t.Inv := by
  rcases exec_cases h with ⟨r, hr, rfl⟩ | ⟨hno, -⟩
  · exact hs.enterFault hr.coherent
  have hnext {u : State} (hu : exec i s = .next u) (hinv : u.Inv) : t.Inv :=
    Host.Outcome.next.inj (h.symm.trans hu) ▸ hinv
  have hadvance := hs.advancePc hrun hpc
  cases i
  case sys => exact hnext rfl hadvance
  case cls | ldVxKk | addVxKk | ldVxVy | orVxVy | andVxVy | xorVxVy | addVxVy | subVxVy | shrVxVy | subnVxVy | shlVxVy
      | ldINnn | rndVxKk | ldVxDt | ldDtVx | ldStVx | addIVx | ldFVx =>
    exact hnext rfl (hadvance.congr rfl rfl rfl rfl)
  case seVxKk | sneVxKk | seVxVy | sneVxVy | skp | sknp => exact hnext rfl (hs.skipIf hrun hpc _)
  case jp nnn => exact hnext rfl (hs.setPc hrun (by rw [toNat_addrOperand]; omega))
  case jpV0Nnn nnn => exact hnext rfl (hs.setPc hrun (by rw [toNat_jumpTarget]; omega))
  case ldVxK x =>
    cases hkey : lowestKey s.keys with
    | none => exact hnext (exec_ldVxK_none x hkey) hs
    | some k => exact hnext (exec_ldVxK_some x hkey) (hadvance.congr rfl rfl rfl rfl)
  case call nnn =>
    have hsp := sp_lt_of_not_raises hno
    refine hnext (exec_call_ok nnn hsp) ((hs.setSlot hsp (by bv_omega) _).setPc hrun ?_)
    rw [toNat_addrOperand]
    omega
  case ret =>
    have hsp : s.sp.val ≠ 0 := fun h => hno _ (.ret h)
    have hslot := hs.stack ⟨s.sp.val - 1, by omega⟩
    have hpopped : State.Inv { s with sp := ⟨s.sp.val - 1, by omega⟩ } := hs.congr rfl rfl rfl rfl
    exact hnext (exec_ret_ok hsp) (hpopped.setPc hrun (hslot.trans (by decide)))
  case ldBVx x =>
    have hin := Nat.le_of_not_gt fun h => hno _ (.ldBVx h)
    refine hnext (exec_ldBVx_ok x hin) (hadvance.setMem (wf_writeAll ?_ hs.memory))
    rw [length_decimalDigits]
    omega
  case ldMemVx x =>
    have hin := Nat.le_of_not_gt fun h => hno _ (.ldMemVx h)
    refine hnext (exec_ldMemVx_ok x hin) ((hadvance.setMem (wf_writeAll ?_ hs.memory)).congr rfl rfl rfl rfl)
    rw [length_regsTo]
    omega
  case ldVxMem x =>
    have hin := Nat.le_of_not_gt fun h => hno _ (.ldVxMem h)
    exact hnext (exec_ldVxMem_ok x hin) (hadvance.congr rfl rfl rfl rfl)
  case drw x y n =>
    have hin := inRange_of_not_raises hno
    exact hnext (exec_drw_ok x y hin) (hadvance.congr rfl rfl rfl rfl)

end

/-- Settles O51: what ends before dispatch keeps the invariant, and so does an instruction fetched inside memory. -/
theorem stepKeepsInvariant : Obligations.StepKeepsInvariant := by
  intro s t hs h
  rcases step_cases h with ⟨-, rfl⟩ | ⟨-, hpc, rfl⟩ | ⟨hrun, hpc, -, rfl⟩ | ⟨hrun, hpc, i, -, hexec⟩
  · exact hs
  · exact hs.enterFault (coherent_fetchError hpc)
  · exact hs.advancePc hrun hpc
  · exact inv_of_exec hs hrun hpc hexec

/-- Settles O52: memory lists nothing, every slot is 0 and the record is clear. -/
theorem resetMeetsInvariant : Obligations.ResetMeetsInvariant where
  memory := rfl
  pc := by decide
  stack j := by
    rw [State.reset, Vector.get_eq_getElem, Vector.getElem_replicate]
    decide
  fault := rfl

/-- Each of the six operations keeps the invariant. -/
theorem inv_of_perform {s : State} (hs : s.Inv) (op : HostOp) : (perform op s).1.Inv := by
  cases op with
  | reset => exact resetMeetsInvariant.congr rfl rfl rfl rfl
  | setKeys k => exact hs.congr rfl rfl rfl rfl
  | tickTimers => exact hs.congr rfl rfl rfl rfl
  | readFramebuffer => exact hs
  | loadRom bytes =>
    by_cases hrom : romAccepted bytes = true
    · obtain ⟨-, hmax⟩ := (romAccepted_iff bytes).1 hrom
      rw [perform_loadRom_ok hrom]
      exact hs.setMem (wf_writeAll (by omega) hs.memory)
    · rw [perform_loadRom_rejected hrom]
      exact hs
  | step r =>
    obtain ⟨t, st, hstep, -, hperform, -⟩ := hostStepHandsOverRand r s
    have hhanded : (s.setRandIn (some r)).Inv := hs.congr rfl rfl rfl rfl
    rw [hperform]
    exact (stepKeepsInvariant _ t hhanded hstep).congr rfl rfl rfl rfl

/-- Settles O53, by induction on the schedule. -/
theorem schedulesKeepInvariant : Obligations.SchedulesKeepInvariant := by
  intro ops
  induction ops with
  | nil => exact fun _ hs => hs
  | cons op ops ih => exact fun s hs => ih _ (inv_of_perform hs op)

end Sys2Proof.Machine
end

section
/-! PROOFS. Noninterference (spec/41_alu.md section 5, spec/60_exceptions.md section 4): the timers, KEY and the random
byte are written from outside a Step, and an instruction that does not name one of them runs alike whatever it holds. -/

namespace Sys2Proof.Machine

/-- The four fields the world outside a Step writes, each changed by a function of its own. -/
def State.mapOutside (d e : Byte → Byte) (k : BitVec 16 → BitVec 16) (r : Option Byte → Option Byte) (s : State) :
    State :=
  { s with dt := d s.dt, st := e s.st, keys := k s.keys, randIn := r s.randIn }

theorem tickTimers_eq_mapOutside (s : State) : s.tickTimers = s.mapOutside tickTimer tickTimer id id := rfl

theorem setRandIn_eq_mapOutside (s : State) (b : Option Byte) :
    s.setRandIn b = s.mapOutside id id id fun _ => b := rfl

theorem setKeys_eq_mapOutside (s : State) (keys : BitVec 16) :
    s.setKeys keys = s.mapOutside id id (fun _ => keys) id := rfl

theorem setSt_eq_mapOutside (s : State) (b : Byte) : s.setSt b = s.mapOutside id (fun _ => b) id id := rfl

section

variable {d e : Byte → Byte} {k : BitVec 16 → BitVec 16} {r : Option Byte → Option Byte} {s t : State}

/-- The end of a Step commutes with the change if the rule does: fault entry leaves the four fields. -/
theorem finish_map_mapOutside {α : Type} {op : Word} {result : Except Raise α} {f g : α → State}
    (h : s.finish op (result.map f) = .next t) (hg : ∀ a, g a = (f a).mapOutside d e k r) :
    (s.mapOutside d e k r).finish op (result.map g) = .next (t.mapOutside d e k r) := by
  cases result with
  | error r => cases h; rfl
  | ok a => cases h; exact congrArg Host.Outcome.next (hg a)

/-- An instruction commutes with the change, where the change leaves alone what the instruction names. -/
theorem exec_mapOutside {i : Instr} (hdt : ∀ x, i = .ldVxDt x ∨ i = .ldDtVx x → d = id)
    (hst : ∀ x, i = .ldStVx x → e = id) (hkeys : ∀ x, i = .skp x ∨ i = .sknp x ∨ i = .ldVxK x → k = id)
    (hrand : ∀ x kk, i = .rndVxKk x kk → r = id) (h : exec i s = .next t) :
    exec i (s.mapOutside d e k r) = .next (t.mapOutside d e k r) := by
  cases i
  case drw | ldBVx | ldMemVx | ldVxMem => exact finish_map_mapOutside h fun _ => rfl
  case call nnn =>
    by_cases hsp : s.sp.val = 16
    · cases h.symm.trans (exec_of_raises (.call hsp))
      exact exec_of_raises (.call hsp)
    · have hlt : s.sp.val < 16 := by omega
      cases h.symm.trans (exec_call_ok nnn hlt)
      exact exec_call_ok (s := s.mapOutside d e k r) nnn hlt
  case ret =>
    by_cases hsp : s.sp.val = 0
    · cases h.symm.trans (exec_of_raises (.ret hsp))
      exact exec_of_raises (.ret hsp)
    · cases h.symm.trans (exec_ret_ok hsp)
      exact exec_ret_ok hsp
  case ldVxK x =>
    obtain rfl := hkeys x (.inr (.inr rfl))
    cases hkey : lowestKey s.keys with
    | none =>
      cases h.symm.trans (exec_ldVxK_none x hkey)
      exact exec_ldVxK_none x hkey
    | some j =>
      cases h.symm.trans (exec_ldVxK_some x hkey)
      exact exec_ldVxK_some x hkey
  case skp x => obtain rfl := hkeys x (.inl rfl); cases h; rfl
  case sknp x => obtain rfl := hkeys x (.inr (.inl rfl)); cases h; rfl
  case ldVxDt x => obtain rfl := hdt x (.inl rfl); cases h; rfl
  case ldDtVx x => obtain rfl := hdt x (.inr rfl); cases h; rfl
  case ldStVx x => obtain rfl := hst x rfl; cases h; rfl
  case rndVxKk x kk => obtain rfl := hrand x kk rfl; cases h; rfl
  all_goals cases h; rfl

end

/-- Settles O58: each change of one field leaves alone what the other instructions name, and Fx18 overwrites ST. -/
theorem inputsReadOnlyByTheirInstructions : Obligations.InputsReadOnlyByTheirInstructions := by
  refine fun i s t h => ⟨fun hi r => ?_, fun hi k => ?_, fun hi b => ?_, ?_⟩
  · simp only [setRandIn_eq_mapOutside]
    exact exec_mapOutside (fun _ _ => rfl) (fun _ _ => rfl) (fun _ _ => rfl) (fun x kk e => absurd e (hi x kk)) h
  · have hkeys (x : Reg) : ¬ (i = .skp x ∨ i = .sknp x ∨ i = .ldVxK x) := by simpa only [not_or] using hi x
    simp only [setKeys_eq_mapOutside]
    exact exec_mapOutside (fun _ _ => rfl) (fun _ _ => rfl) (fun x e => absurd e (hkeys x)) (fun _ _ _ => rfl) h
  · simp only [setSt_eq_mapOutside]
    exact exec_mapOutside (fun _ _ => rfl) (fun x e => absurd e (hi x)) (fun _ _ => rfl) (fun _ _ _ => rfl) h
  · rintro ⟨x, rfl⟩ b
    cases h
    rfl

/-- Settles O59: a tick changes the timers alone, which the instruction does not name. -/
theorem tickCommutesWithOtherInstructions : Obligations.TickCommutesWithOtherInstructions := by
  intro i s t hi h
  have hdt (x : Reg) : ¬ (i = .ldVxDt x ∨ i = .ldDtVx x) := not_or.2 ⟨(hi x).1, (hi x).2.1⟩
  simp only [tickTimers_eq_mapOutside]
  exact exec_mapOutside (fun x e => absurd e (hdt x)) (fun x e => absurd e (hi x).2.2) (fun _ _ => rfl)
    (fun _ _ _ => rfl) h

end Sys2Proof.Machine
end

section
/-! PROOFS. Drawing (spec/43_display.md R560): the canvas DRW leaves, pixel by pixel, and the second draw of the same
sprite. -/

namespace Sys2Proof.Machine

/-- The block at I is the sprite whose bits the claims speak of. -/
theorem spriteListCovers_block (s : State) (x y : Reg) (n : BitVec 4) (px py : Nat) :
    SpriteListCovers (s.reg x).toNat (s.reg y).toNat (s.block n.toNat) px py ↔ SpriteCovers s x y n px py := by
  simp [SpriteListCovers, ByteCovers, SpriteCovers, spriteBit, length_block, getElem_block]

/-- DRW draws at most 15 rows, so no two of them fall on one row of the screen. -/
theorem length_block_le (s : State) (n : BitVec 4) : (s.block n.toNat).length ≤ 32 := by
  rw [length_block]
  omega

theorem canvas_pixel (s : State) (x y : Reg) (n : BitVec 4) {px py : Nat} (hx : px < 64) (hy : py < 32) :
    pixelAt (s.canvas x y n).fb (pixelIndex px py) = true ↔ ¬ (PixelSet s px py ↔ SpriteCovers s x y n px py) := by
  rw [← spriteListCovers_block]
  exact (drawRows_spec _ _ _ (length_block_le s n) _).1 px hx py hy

theorem canvas_coll (s : State) (x y : Reg) (n : BitVec 4) :
    (s.canvas x y n).coll = true ↔ ∃ px < 64, ∃ py < 32, SpriteCovers s x y n px py ∧ PixelSet s px py := by
  simp only [← spriteListCovers_block]
  exact (drawRows_spec _ _ _ (length_block_le s n) _).2.trans (or_iff_right Bool.false_ne_true)

/-- Settles O37: pixels and collision are those of the canvas, whose sprite is the block at I. -/
theorem drawTogglesCoveredPixels : Obligations.DrawTogglesCoveredPixels := by
  intro x y n s
  refine ⟨encodes_of_decode_encode (toNat_formXyn _ _ _ _) (decode_encode rfl), fun hin => ?_⟩
  have hok := exec_drw_ok x y hin
  have hno : ∀ r, ¬ Raises s (.drw x y n) r := by
    intro r hr
    cases hr with
    | drw hn h => exact (hin.resolve_left hn).not_gt h
  refine ⟨_, hok, fun px hx py hy => canvas_pixel s x y n hx hy, fun hset => ?_, fun hclear => ?_, rfl,
    exec_unchangedBut hok hno⟩
  · rw [reg_setReg_same, (canvas_coll s x y n).2 hset]
    rfl
  · have hcoll : (s.canvas x y n).coll = false := by
      rw [Bool.eq_false_iff, ne_eq, canvas_coll]
      rintro ⟨px, hx, py, hy, hcovers, hset⟩
      exact hclear px hx py hy hcovers hset
    rw [reg_setReg_same, hcoll]
    rfl

/-- Where a sprite falls depends on its place, its operands and its bytes alone. -/
theorem spriteCovers_congr {s t : State} {x y : Reg} (hx : t.reg x = s.reg x) (hy : t.reg y = s.reg y)
    (hidx : t.idx = s.idx) (hmem : ∀ a, t.mem.read a = s.mem.read a) (n : BitVec 4) (px py : Nat) :
    SpriteCovers t x y n px py ↔ SpriteCovers s x y n px py := by
  simp only [SpriteCovers, spriteBit, hx, hy, hidx, hmem]

/-- Framebuffers with the same pixels by coordinates are the same. -/
theorem fb_eq_of_pixelSet {s t : State} (h : ∀ px < 64, ∀ py < 32, (PixelSet t px py ↔ PixelSet s px py)) :
    t.fb = s.fb := by
  refine pixels_ext fun k hk => Bool.eq_iff_iff.2 ?_
  have hpixel := h (k % 64) (by omega) (k / 64) (by omega)
  rwa [PixelSet, PixelSet, Nat.div_add_mod'] at hpixel

/-- Settles O38: the second draw falls on the same pixels, and inverting twice restores them; on a blank screen what it
finds set is what the first draw covered. -/
theorem drawTwiceRestoresScreen : Obligations.DrawTwiceRestoresScreen := by
  intro x y n s t hx hy hin h
  obtain ⟨t', ht', hfirst, -, hvf, -, hregs, hparts⟩ := (drawTogglesCoveredPixels x y n s).2 hin
  obtain rfl := Host.Outcome.next.inj (h.symm.trans ht')
  have hidx : t.idx = s.idx := hparts .index (by simp)
  have hcovers := spriteCovers_congr (hregs x (by simpa using hx)) (hregs y (by simpa using hy)) hidx
    (hparts .memory (by simp)) n
  obtain ⟨u, hu, hsecond, hset, hclear, -⟩ := (drawTogglesCoveredPixels x y n t).2 (hidx ▸ hin)
  refine ⟨u, hu, fb_eq_of_pixelSet fun px hpx py hpy => ?_, fun hblank => ⟨?_, ?_, ?_⟩⟩
  · rw [hsecond px hpx py hpy, hfirst px hpx py hpy, hcovers]
    by_cases hcov : SpriteCovers s x y n px py <;> simp [hcov]
  · exact hvf fun px hpx py hpy _ => hblank px hpx py hpy
  · rintro ⟨r, hr, c, hc, hbit⟩
    have hcovered : SpriteCovers s x y n (((s.reg x).toNat + c) % 64) (((s.reg y).toNat + r) % 32) :=
      ⟨r, hr, c, hc, hbit, rfl, rfl⟩
    have hpx : ((s.reg x).toNat + c) % 64 < 64 := Nat.mod_lt _ (by decide)
    have hpy : ((s.reg y).toNat + r) % 32 < 32 := Nat.mod_lt _ (by decide)
    refine hset ⟨_, hpx, _, hpy, (hcovers _ _).2 hcovered, ?_⟩
    rw [hfirst _ hpx _ hpy]
    exact fun hiff => hblank _ hpx _ hpy (hiff.2 hcovered)
  · intro hzero
    refine hclear fun px _ py _ hcov => ?_
    obtain ⟨r, hr, c, hc, hbit, -⟩ := (hcovers px py).1 hcov
    exact absurd hbit (by simp [hzero r hr c hc])

end Sys2Proof.Machine
end
